-- ==== Sys2Proof/Word.lean ====
section
/-! DEFINITION. The machine's words (00_scope.md R5): every register, memory cell, operand and data address is one
byte; the program counter has one bit more, so that it can hold 256, one past the last address. -/

namespace Sys2Proof

/-- An unsigned 8-bit value 0..255: a register, a memory cell, an operand byte (R5, R7). -/
abbrev Byte := BitVec 8

/-- A data address or jump target: 8 bits, so always inside the 256 byte addresses (20_memory.md R37). -/
abbrev Addr := BitVec 8

/-- The program counter: 9 bits, holding 0..256 (10_state.md R19). -/
abbrev PcWord := BitVec 9

/-- A checked register index 0..7, naming r0..r7 (10_state.md R15, 00_scope.md R9). -/
abbrev RegIdx := Fin 8

end Sys2Proof
end

