-- ==== Sys2Proof/Config.lean ====
section
/-! DEFINITION. The parameters of 00_scope.md R5. They are fixed numbers: the spec leaves none open, so this file
holds no free value (92_eei_decisions.md: "No point is left `OPEN`"). -/

namespace Sys2Proof.Config

/-- `MEM_SIZE`: addresses 0 to 255. -/
abbrev memSize : Nat := 256

/-- `SP_INDEX`: register 7 is the stack pointer. -/
abbrev spIndex : RegIdx := 7

/-- `SP_RESET` (10_state.md R18). -/
abbrev spReset : Byte := 0xF4

/-- The reset value of r0..r6 (10_state.md R18, the spec's decision D5; UNVERIFIED, log entry 5). -/
abbrev regReset : Byte := 0

/-- `PC_RESET` (10_state.md R20). -/
abbrev pcReset : PcWord := 0

/-- `LOAD_BASE`: the address of the first loaded byte (10_state.md R30). -/
abbrev loadBase : Nat := 0

/-- What a memory cell holds after reset (10_state.md R14, "zero-initialized"), and so what an address that memory
does not list reads as. -/
abbrev memReset : Byte := 0

end Sys2Proof.Config
end

