-- ==== Sys2Proof/Machine/State.lean ====
section
/-! DEFINITION. The architectural state: exactly the tuple of 10_state.md R13, as plain data, under the spec's own
names; and the state right after reset (70_reset_and_hazards.md R98). -/

namespace Sys2Proof.Machine

/-- The causes a step can raise, each with the info it records (60_exceptions.md R85). -/
inductive Cause where
  /-- Code 1: the fetch at `pc` passes address 255 (R86). -/
  | fetchOverrun (pc : PcWord)
  /-- Code 2: a register operand byte names no register (R87). -/
  | badRegister (operand : Byte)
  deriving DecidableEq, Repr

/-- The run state (10_state.md R26). `halted` and `faulted` are terminal. -/
inductive RunState where
  | running
  | halted
  | faulted (cause : Cause)
  deriving DecidableEq, Repr

/-- Memory: the cells that do not hold the reset value, by rising address. -/
abbrev Memory := List Host.Cell

/-- The canonical form of a memory: addresses strictly rising and inside the address space, and no cell that holds
what an unlisted address reads as. Two memories in this form that read alike are equal data (DESIGN
CHOICE, log entry 4). -/
abbrev Memory.wf (m : Memory) : Prop :=
  m.Pairwise (fun c d => c.1 < d.1) ∧ ∀ c ∈ m, c.1 < Config.memSize ∧ c.2 ≠ Config.memReset

/-- The complete architectural state (10_state.md R13). -/
structure State where
  /-- `M[0..255]` (R14). -/
  M : Memory
  /-- `x[0..7]`; `x[7]` is the stack pointer (R15, R17). -/
  x : Vector Byte 8
  /-- The address of the next instruction to fetch, 0..256 (R19). -/
  pc : PcWord
  /-- The Equal flag (R22). -/
  E : Bool
  /-- The Less flag (R22). -/
  L : Bool
  /-- The Greater flag (R22). -/
  G : Bool
  /-- The run state (R26). -/
  run : RunState
  /-- The bytes PRN has emitted, in execution order (R27). -/
  out : List Byte
  deriving DecidableEq, Repr

/-- The state after reset (70_reset_and_hazards.md R98). The zeros of r0..r6 and of the flags are the spec's decisions
D5 and D6 (UNVERIFIED, log entries 5 and 6). -/
def State.reset : State where
  M := []
  x := (Vector.replicate 8 Config.regReset).set 7 Config.spReset
  pc := Config.pcReset
  E := false
  L := false
  G := false
  run := .running
  out := []

/-- The ways a step of the model could stop with no next state. THERE IS NONE, so this type has no constructor: the
spec's own faults (60_exceptions.md R85) are NEXT states, in which `run` is `faulted` (R88), an unknown opcode is a
self-loop (40_execution_cycle.md R62), and no data address can leave the address space (20_memory.md R37).
Safe: nothing is hidden behind a stop. UNVERIFIED, log entry 3. -/
inductive Fault : Type
  deriving DecidableEq, Repr

/-- Refusals. -/
inductive Refusal where
  /-- Raised by an arm of `exec` whose instruction has no meaning yet: by none, in this model. Safe: a refused
  instruction proves nothing. -/
  | notModelled (mnemonic : String)
  deriving DecidableEq, Repr

end Sys2Proof.Machine
end

