-- ==== Sys2Proof/Machine/Ops.lean ====
section
/-! DEFINITION. The named operations over memory, registers, flags, the program counter, the output stream and the run
state (the primitives of 00_scope.md R9). Every read and every write of the state goes through one of them. -/

namespace Sys2Proof.Machine

/-- What a step or an instruction answers. -/
abbrev Result := Host.Outcome State Fault Refusal

/-- The byte at an address: the listed cell's, else the reset contents (20_memory.md R42, R45). -/
def Memory.read : Memory → Addr → Byte
  | [], _ => Config.memReset
  | (k, w) :: rest, a => if k = a.toNat then w else Memory.read rest a

/-- The memory with one byte stored, in canonical form again: a cell set back to the reset contents leaves the list. -/
def Memory.write : Memory → Addr → Byte → Memory
  | [], a, v => if v = Config.memReset then [] else [(a.toNat, v)]
  | (k, w) :: rest, a, v =>
    if a.toNat < k then
      if v = Config.memReset then (k, w) :: rest else (a.toNat, v) :: (k, w) :: rest
    else if a.toNat = k then
      if v = Config.memReset then rest else (k, v) :: rest
    else (k, w) :: Memory.write rest a v

/-- Bytes stored one after another from address `base` up; a byte whose address would pass 255 is not stored, since
no such address exists (20_memory.md R37). -/
def Memory.writeBytes (m : Memory) (base : Nat) : List Byte → Memory
  | [] => m
  | v :: rest =>
    if base < Config.memSize then Memory.writeBytes (m.write (BitVec.ofNat 8 base) v) (base + 1) rest else m

/-- `MemRead(addr, 1)` (R9). -/
def State.memRead (s : State) (a : Addr) : Byte := s.M.read a

/-- `MemWrite(addr, 1, v)` (R9). -/
def State.memWrite (s : State) (a : Addr) (v : Byte) : State := { s with M := s.M.write a v }

/-- The byte at an address given as a number; `none` where the address space has no such address (R37, R38). -/
def State.byteAt? (s : State) (a : Nat) : Option Byte :=
  if a < Config.memSize then some (s.memRead (BitVec.ofNat 8 a)) else none

/-- `x[i]` (R9, 10_state.md R15: no register is hardwired). -/
def State.reg (s : State) (r : RegIdx) : Byte := s.x[r]

/-- `x[i] <- v` (R9, 10_state.md R16): no flag changes. -/
def State.setReg (s : State) (r : RegIdx) (v : Byte) : State := { s with x := s.x.set r v }

/-- The stack pointer is register 7, the same storage (10_state.md R17). -/
def State.sp (s : State) : Byte := s.reg Config.spIndex

/-- `SP <- v`. -/
def State.setSp (s : State) (v : Byte) : State := s.setReg Config.spIndex v

/-- The sequential advance by an instruction of `n` bytes, with no wrap at 256 (40_execution_cycle.md R67). -/
def State.advance (s : State) (n : Nat) : State := { s with pc := s.pc + BitVec.ofNat 9 n }

/-- `pc <- t` for a jump target, an 8-bit register value (43_control.md R76). -/
def State.jump (s : State) (t : Addr) : State := { s with pc := t.setWidth 9 }

/-- Writes the three flags together; only CMP does (10_state.md R22). -/
def State.setFlags (s : State) (e l g : Bool) : State := { s with E := e, L := l, G := g }

/-- `Output(v)`: appends one byte to the output stream (10_state.md R27). -/
def State.output (s : State) (v : Byte) : State := { s with out := s.out ++ [v] }

/-- `halt`: the run state becomes Halted (43_control.md R77). -/
def State.halt (s : State) : State := { s with run := .halted }

/-- TAKING AN EXCEPTION, the one operation for both causes (60_exceptions.md R88): `run` becomes `Faulted(cause, info)`
and nothing else changes; `pc` keeps the address of the faulting instruction, and control goes nowhere. There is no
return from it (R90): only reset leaves the faulted state, and reset is `State.reset`. -/
def State.raise (s : State) (c : Cause) : State := { s with run := .faulted c }

end Sys2Proof.Machine
end

