-- ==== Sys2Proof/Machine/Flags.lean ====
section
/-! DEFINITION. The ALU's pure functions (40_execution_cycle.md R65, 41_alu.md R70): unsigned, computed exactly on
naturals and reduced modulo 256; and the one flag computation, Compare's. Add and Multiply touch no flag. -/

namespace Sys2Proof.Machine

/-- Add: `(x + y) mod 256`. -/
def aluAdd (x y : Byte) : Byte := BitVec.ofNat 8 (x.toNat + y.toNat)

/-- Multiply: `(x * y) mod 256`, the low byte of the product; the high byte is kept nowhere. -/
def aluMul (x y : Byte) : Byte := BitVec.ofNat 8 (x.toNat * y.toNat)

/-- Compare: E, L and G from the unsigned order of the two values, `x` on the left (41_alu.md R73, decision D19;
UNVERIFIED, log entry 11). -/
def State.compare (s : State) (x y : Byte) : State :=
  s.setFlags (decide (x.toNat = y.toNat)) (decide (x.toNat < y.toNat)) (decide (y.toNat < x.toNat))

end Sys2Proof.Machine
end

