-- ==== Sys2Proof/Machine/Operands.lean ====
section
/-! DEFINITION. The operand forms (30_encoding.md R51 to R53). There are two: a register operand, the whole operand
byte turned into an index by `RegIdx`, and LDI's immediate, the byte itself. Every check comes before any write
(00_scope.md R11). -/

namespace Sys2Proof.Machine

/-- `RegIdx(b)` (00_scope.md R9): 0..7 name r0..r7, and 8..255 raise BadRegister; the byte is never masked to three
bits (30_encoding.md R51, decision D4; UNVERIFIED, log entry 7). -/
def regIdx (b : Byte) : Except Cause RegIdx :=
  if h : b.toNat < 8 then .ok ⟨b.toNat, h⟩ else .error (.badRegister b)

/-- The operand byte that names a register (30_encoding.md R51). -/
def regByte (r : RegIdx) : Byte := BitVec.ofNat 8 r.val

/-- An instruction with one register operand: `k` is its effect once the operand is a register. -/
def withReg (s : State) (a : Byte) (k : RegIdx → State) : Result :=
  match regIdx a with
  | .ok ra => .next (k ra)
  | .error c => .next (s.raise c)

/-- An instruction with two register operands, `ra` checked before `rb` (40_execution_cycle.md R68). -/
def withRegs (s : State) (a b : Byte) (k : RegIdx → RegIdx → State) : Result :=
  match regIdx a with
  | .ok ra => withReg s b (k ra)
  | .error c => .next (s.raise c)

end Sys2Proof.Machine
end

