-- ==== Sys2Proof/Machine/Alu.lean ====
section
/-! DEFINITION. The ALU family: ADD, MUL, CMP (41_alu.md). -/

namespace Sys2Proof.Machine

/-- ADD (R71): `x[ra] <- (x[ra] + x[rb]) mod 256`. -/
def execAdd (a b : Byte) (s : State) : Result :=
  withRegs s a b fun ra rb => (s.setReg ra (aluAdd (s.reg ra) (s.reg rb))).advance 3

/-- MUL (R72): `x[ra] <- (x[ra] * x[rb]) mod 256`. -/
def execMul (a b : Byte) (s : State) : Result :=
  withRegs s a b fun ra rb => (s.setReg ra (aluMul (s.reg ra) (s.reg rb))).advance 3

/-- CMP (R73): sets exactly one of E, L, G. -/
def execCmp (a b : Byte) (s : State) : Result :=
  withRegs s a b fun ra rb => (s.compare (s.reg ra) (s.reg rb)).advance 3

end Sys2Proof.Machine
end

