-- ==== Sys2Proof/Machine/Control.lean ====
section
/-! DEFINITION. The control family: HLT, JMP, JEQ, JNE (43_control.md). Every jump is absolute and
register-indirect (R76), and the register operand is checked whether or not the jump is taken. -/

namespace Sys2Proof.Machine

/-- HLT (R77): `run <- Halted` and `pc <- pc + 1`. -/
def execHlt (s : State) : Result := .next (s.halt.advance 1)

/-- JMP (R78): `pc <- x[ra]`. -/
def execJmp (a : Byte) (s : State) : Result :=
  withReg s a fun ra => s.jump (s.reg ra)

/-- JEQ (R79): the jump is taken when E = 1; L and G are not tested. -/
def execJeq (a : Byte) (s : State) : Result :=
  withReg s a fun ra => if s.E then s.jump (s.reg ra) else s.advance 2

/-- JNE (R80): the jump is taken when E = 0, exactly; L and G are not tested. -/
def execJne (a : Byte) (s : State) : Result :=
  withReg s a fun ra => if s.E then s.advance 2 else s.jump (s.reg ra)

end Sys2Proof.Machine
end

