-- ==== Sys2Proof/Machine/DataIo.lean ====
section
/-! DEFINITION. Register load and output: LDI, PRN (42_data_io.md). -/

namespace Sys2Proof.Machine

/-- LDI (R74): `x[ra] <- imm8`, the byte unchanged (30_encoding.md R52). -/
def execLdi (a imm : Byte) (s : State) : Result :=
  withReg s a fun ra => (s.setReg ra imm).advance 3

/-- PRN (R75): appends `x[ra]` to the output stream; the core never waits on it (10_state.md R34). -/
def execPrn (a : Byte) (s : State) : Result :=
  withReg s a fun ra => (s.output (s.reg ra)).advance 2

end Sys2Proof.Machine
end

