-- ==== Sys2Proof/Machine/Stack.lean ====
section
/-! DEFINITION. The stack family: PUSH, POP (44_stack.md). The stack is full-descending and lives in memory; SP wraps
modulo 256 and nothing is checked (R81). The statements run in order (00_scope.md R10), which PUSH r7 and POP r7 show
(decision D15; UNVERIFIED, log entry 9). -/

namespace Sys2Proof.Machine

/-- `SP -= 1`, modulo 256. -/
def State.decSp (s : State) : State := s.setSp (s.sp - 1)

/-- `SP += 1`, modulo 256. -/
def State.incSp (s : State) : State := s.setSp (s.sp + 1)

/-- `Memory[SP] = register[reg]`. -/
def State.storeTop (s : State) (r : RegIdx) : State := s.memWrite s.sp (s.reg r)

/-- `register[reg] = Memory[SP]`. -/
def State.loadTop (s : State) (r : RegIdx) : State := s.setReg r (s.memRead s.sp)

/-- PUSH (R82): SP is decremented, then `x[ra]` is read and stored at SP. -/
def execPush (a : Byte) (s : State) : Result :=
  withReg s a fun ra => (s.decSp.storeTop ra).advance 2

/-- POP (R83): the byte at SP is loaded, then SP, read after the load, is incremented. -/
def execPop (a : Byte) (s : State) : Result :=
  withReg s a fun ra => (s.loadTop ra).incSp.advance 2

end Sys2Proof.Machine
end

