-- ==== Sys2Proof/Syntax.lean ====
section
/-! DEFINITION. The instructions (00_scope.md R2): one constructor per row of spec/opcode_table.json, in the table's
order. An operand is the WHOLE operand byte (30_encoding.md R51, R57): a register operand of 8..255 is encodable, and
executing it raises BadRegister, so the byte itself is kept. -/

namespace Sys2Proof

inductive Instr where
  /-- Halt (R77). -/
  | hlt
  /-- Load the immediate `imm` into register `ra` (R74). -/
  | ldi (ra imm : Byte)
  /-- Emit register `ra` (R75). -/
  | prn (ra : Byte)
  /-- Multiply register `ra` by register `rb` (R72). -/
  | mul (ra rb : Byte)
  /-- Add register `rb` into register `ra` (R71). -/
  | add (ra rb : Byte)
  /-- Compare register `ra` with register `rb` (R73). -/
  | cmp (ra rb : Byte)
  /-- Jump to the address in register `ra` (R78). -/
  | jmp (ra : Byte)
  /-- Jump if Equal (R79). -/
  | jeq (ra : Byte)
  /-- Jump if not Equal (R80). -/
  | jne (ra : Byte)
  /-- Push register `ra` (R82). -/
  | push (ra : Byte)
  /-- Pop into register `ra` (R83). -/
  | pop (ra : Byte)
  deriving DecidableEq, Repr

end Sys2Proof
end

