-- ==== Sys2Proof/WellFormed.lean ====
section
/-! DEFINITION. Well-formed instructions: every register operand names one of r0..r7 (30_encoding.md R51: "no register
index outside 0–7 is ever referenced by a well-formed instruction stream"). LDI's immediate is never checked (R57).
An ill-formed instruction still decodes and still executes: it raises BadRegister (60_exceptions.md R87). -/

namespace Sys2Proof

/-- The register operands of an instruction, in the order in which they are checked: `ra` before `rb`
(40_execution_cycle.md R68). -/
def Instr.regOperands : Instr → List Byte
  | .hlt => []
  | .ldi ra _ => [ra]
  | .prn ra => [ra]
  | .mul ra rb => [ra, rb]
  | .add ra rb => [ra, rb]
  | .cmp ra rb => [ra, rb]
  | .jmp ra => [ra]
  | .jeq ra => [ra]
  | .jne ra => [ra]
  | .push ra => [ra]
  | .pop ra => [ra]

/-- Every register operand is 0..7. -/
def Instr.WellFormed (i : Instr) : Bool := i.regOperands.all fun r => decide (r.toNat < 8)

end Sys2Proof
end

