-- ==== Sys2Proof/Decode.lean ====
section
/-! DEFINITION. The opcode map, the decoder and the encoder (30_encoding.md). An instruction is a list of bytes, the
opcode first. The decoder looks the whole opcode byte up and nothing else (R50, R54, R55): bits 7:6, 5 and 4 have no
meaning of their own. It is total on any list of bytes and refuses by name. -/

namespace Sys2Proof

/-- The eleven opcodes, named by their mnemonics (R54). -/
inductive Opcode where
  | hlt | ldi | prn | mul | add | cmp | jmp | jeq | jne | push | pop
  deriving DecidableEq, Repr

/-- The four formats (R49): no operand; one register; two registers; a register and an immediate. -/
inductive Format where
  | z | r | rr | ri
  deriving DecidableEq, Repr

/-- The instruction's length in bytes (R49). -/
def Format.length : Format → Nat
  | .z => 1
  | .r => 2
  | .rr => 3
  | .ri => 3

/-- All eleven, in the order of R54. -/
def Opcode.all : List Opcode :=
  [.hlt, .ldi, .prn, .mul, .add, .cmp, .jmp, .jeq, .jne, .push, .pop]

/-- The opcode byte, copied from the binary column of R54. -/
def Opcode.byte : Opcode → Byte
  | .hlt => 0b00000001
  | .ldi => 0b10000010
  | .prn => 0b01000111
  | .mul => 0b10100010
  | .add => 0b10100000
  | .cmp => 0b10100111
  | .jmp => 0b01010100
  | .jeq => 0b01010101
  | .jne => 0b01010110
  | .push => 0b01000101
  | .pop => 0b01000110

/-- The format column of R54. -/
def Opcode.format : Opcode → Format
  | .hlt => .z
  | .ldi => .ri
  | .prn => .r
  | .mul => .rr
  | .add => .rr
  | .cmp => .rr
  | .jmp => .r
  | .jeq => .r
  | .jne => .r
  | .push => .r
  | .pop => .r

/-- `LEN(op)`: the opcode alone sets the length (R50). -/
def Opcode.length (o : Opcode) : Nat := o.format.length

/-- The mnemonic, as the opcode table spells it (R54). -/
def Opcode.mnemonic : Opcode → String
  | .hlt => "HLT"
  | .ldi => "LDI"
  | .prn => "PRN"
  | .mul => "MUL"
  | .add => "ADD"
  | .cmp => "CMP"
  | .jmp => "JMP"
  | .jeq => "JEQ"
  | .jne => "JNE"
  | .push => "PUSH"
  | .pop => "POP"

/-- The instruction with operand bytes `a` (at `pc+1`) and `b` (at `pc+2`); an operand the format has not is ignored. -/
def Opcode.toInstr (o : Opcode) (a b : Byte) : Instr :=
  match o with
  | .hlt => .hlt
  | .ldi => .ldi a b
  | .prn => .prn a
  | .mul => .mul a b
  | .add => .add a b
  | .cmp => .cmp a b
  | .jmp => .jmp a
  | .jeq => .jeq a
  | .jne => .jne a
  | .push => .push a
  | .pop => .pop a

/-- The opcode whose byte this is: all 8 bits are matched (R54); `none` for the 245 unknown bytes (R56). -/
def opcodeOf (op : Byte) : Option Opcode := Opcode.all.find? fun o => o.byte == op

/-- Why a list of bytes is no instruction. -/
inductive DecodeRefusal where
  /-- There is no byte at all. -/
  | noBytes
  /-- The first byte is none of the eleven opcodes (R56). -/
  | unknownOpcode (op : Byte)
  /-- The opcode is known, and an operand byte it needs is missing. -/
  | truncated (o : Opcode)
  deriving DecidableEq, Repr

/-- Reads one instruction and answers it with the bytes after it (R49, R50). -/
def decode : List Byte → Except DecodeRefusal (Instr × List Byte)
  | [] => .error .noBytes
  | op :: rest =>
    match opcodeOf op with
    | none => .error (.unknownOpcode op)
    | some o =>
      match o.format, rest with
      | .z, rest => .ok (o.toInstr 0 0, rest)
      | .r, a :: rest => .ok (o.toInstr a 0, rest)
      | .rr, a :: b :: rest => .ok (o.toInstr a b, rest)
      | .ri, a :: b :: rest => .ok (o.toInstr a b, rest)
      | _, _ => .error (.truncated o)

/-- The opcode of an instruction. -/
def Instr.opcode : Instr → Opcode
  | .hlt => .hlt
  | .ldi _ _ => .ldi
  | .prn _ => .prn
  | .mul _ _ => .mul
  | .add _ _ => .add
  | .cmp _ _ => .cmp
  | .jmp _ => .jmp
  | .jeq _ => .jeq
  | .jne _ => .jne
  | .push _ => .push
  | .pop _ => .pop

/-- The operand bytes of an instruction, in memory order. -/
def Instr.operands : Instr → List Byte
  | .hlt => []
  | .ldi ra imm => [ra, imm]
  | .prn ra => [ra]
  | .mul ra rb => [ra, rb]
  | .add ra rb => [ra, rb]
  | .cmp ra rb => [ra, rb]
  | .jmp ra => [ra]
  | .jeq ra => [ra]
  | .jne ra => [ra]
  | .push ra => [ra]
  | .pop ra => [ra]

/-- The instruction's length in bytes (R54). -/
def Instr.length (i : Instr) : Nat := i.opcode.length

/-- The bytes of an instruction, the opcode first (R49). -/
def encode (i : Instr) : List Byte := i.opcode.byte :: i.operands

/-- The three bytes that a word numbered as spec/opcode_table.json numbers it stands for: bit 0 is the least
significant bit of the first byte, the second byte is bits 15..8, and every bit from `nbits` up is 0. Three bytes is
the longest instruction (DESIGN CHOICE, log entry 13). -/
def tableWordBytes (nbits w : Nat) : List Byte :=
  [BitVec.ofNat 8 (w % 2 ^ nbits), BitVec.ofNat 8 (w % 2 ^ nbits / 256), BitVec.ofNat 8 (w % 2 ^ nbits / 65536)]

/-- What the decoder reads from an instruction of that word. -/
def decodeTableWord (nbits w : Nat) : Option Instr :=
  match decode (tableWordBytes nbits w) with
  | .ok (i, _) => some i
  | .error _ => none

end Sys2Proof
end

