-- ==== Sys2Proof/Machine/Fetch.lean ====
section
/-! DEFINITION. Fetching an instruction (40_execution_cycle.md R61), and what a step does when there is none to
execute. The checks come in R68's order: `pc` past 255, then an unknown opcode, then whether the used bytes fit. -/

namespace Sys2Proof.Machine

/-- What the fetch at `pc` finds. -/
inductive Fetched where
  /-- An instruction, all its bytes inside memory. -/
  | instr (i : Instr)
  /-- The opcode byte is none of the eleven. -/
  | unknown (op : Byte)
  /-- A byte the instruction uses, or its opcode, would lie past address 255. -/
  | overrun
  deriving DecidableEq, Repr

/-- The bytes at `pc`, `pc+1` and `pc+2` that exist, in order: none of them past address 255, and no address wraps to 0
(20_memory.md R38). A byte here that the instruction does not use has no effect (10_state.md R28). -/
def State.fetchBytes (s : State) : List Byte :=
  [s.pc.toNat, s.pc.toNat + 1, s.pc.toNat + 2].filterMap s.byteAt?

/-- `Fetch()` (R61). The bytes that exist run out exactly where the used ones would pass address 255. -/
def State.fetch (s : State) : Fetched :=
  match decode s.fetchBytes with
  | .ok (i, _) => .instr i
  | .error (.unknownOpcode op) => .unknown op
  | .error (.truncated _) => .overrun
  | .error .noBytes => .overrun

/-- A fetch past address 255 raises `FetchOverrun(pc)` (60_exceptions.md R86). -/
def State.raiseFetchOverrun (s : State) : State := s.raise (.fetchOverrun s.pc)

/-- An unknown opcode changes no state and does not advance `pc` (R62): the hang, as the self-loop
that R63 allows (DESIGN CHOICE, log entry 2). -/
def State.hang (s : State) : State := s

/-- A core that is Halted or Faulted takes no step, and nothing changes (10_state.md R31; DESIGN CHOICE, log
entry 1). -/
def State.stayStopped (s : State) : State := s

/-- The state in which the next step fetches the instruction of a table word: running, with the three bytes stored
from `pc` up (DESIGN CHOICE, log entry 13). -/
def State.placeWord (s : State) (nbits w : Nat) : State :=
  { s with M := s.M.writeBytes s.pc.toNat (tableWordBytes nbits w), run := .running }

end Sys2Proof.Machine
end

