-- ==== Sys2Proof/Machine/Step.lean ====
section
/-! DEFINITION. One step of the core (40_execution_cycle.md R60): a whole instruction, indivisible (00_scope.md R6). -/

namespace Sys2Proof.Machine

/-- `Step()` (R60): fetch, and then execute what was fetched. Only a Running core fetches. -/
def step (s : State) : Host.Outcome State Fault Refusal :=
  match s.run with
  | .running =>
    match s.fetch with
    | .instr i => exec i s
    | .unknown _ => .next s.hang
    | .overrun => .next s.raiseFetchOverrun
  | .halted => .next s.stayStopped
  | .faulted _ => .next s.stayStopped

/-- `s` with the instruction of a table word placed where `step` fetches next. -/
def State.withFetchWord (s : State) (nbits w : Nat) : State := s.placeWord nbits w

end Sys2Proof.Machine
end

