-- ==== Sys2Proof/Machine/Disasm.lean ====
section
/-! DEFINITION. Disassembly (30_encoding.md R59) in the assembly notation of 00_scope.md R12 and 30_encoding.md R58: a
tool convention with no effect on the core. -/

namespace Sys2Proof.Machine

/-- One line of a listing. -/
inductive Listing where
  /-- A known opcode with all its operand bytes. -/
  | instr (i : Instr)
  /-- A known opcode whose operands would pass address 255. -/
  | truncated (o : Opcode)
  /-- An unknown byte, listed with length 1. -/
  | unknown (op : Byte)
  deriving DecidableEq, Repr

/-- The listing of the bytes from an address on (R59). -/
def disassemble (m : Memory) (p : Addr) : Listing :=
  match decode ([p.toNat, p.toNat + 1, p.toNat + 2].filterMap
      fun a => if a < Config.memSize then some (m.read (BitVec.ofNat 8 a)) else none) with
  | .ok (i, _) => .instr i
  | .error (.truncated o) => .truncated o
  | .error (.unknownOpcode op) => .unknown op
  | .error .noBytes => .unknown (m.read p)

/-- How far the listing goes on to its next line: the instruction's length, and 1 for an unknown byte (R59). R59 gives no
length to a known opcode whose operands would pass address 255; the model takes 1 (DESIGN CHOICE, log entry 15). -/
def Listing.length : Listing → Nat
  | .instr i => i.length
  | .truncated _ => 1
  | .unknown _ => 1

/-- A number of the listing: an immediate, an unknown byte, or a register operand that names no register. It is printed in
decimal; R12 allows an immediate in `0x` hex too, and R59 names no base (DESIGN CHOICE, log entry 15). -/
def renderNumber (b : Byte) : String := toString b.toNat

/-- A register operand: `r0`..`r7`, or the number with a mark of ill-formedness, here `?` (R59; DESIGN CHOICE, log entry
15). -/
def renderReg (b : Byte) : String :=
  if b.toNat < 8 then "r" ++ toString b.toNat else renderNumber b ++ "?"

/-- An instruction in assembly notation (R12, R58); the immediate is in decimal (`renderNumber`, log entry 15). -/
def renderInstr (i : Instr) : String :=
  match i with
  | .hlt => i.opcode.mnemonic
  | .ldi ra imm => i.opcode.mnemonic ++ " " ++ renderReg ra ++ "," ++ renderNumber imm
  | .prn ra | .jmp ra | .jeq ra | .jne ra | .push ra | .pop ra => i.opcode.mnemonic ++ " " ++ renderReg ra
  | .mul ra rb | .add ra rb | .cmp ra rb => i.opcode.mnemonic ++ " " ++ renderReg ra ++ "," ++ renderReg rb

/-- A line of the listing as text (R59). The words for a truncated and an unknown line are the model's (DESIGN CHOICE, log
entry 15). -/
def renderListing : Listing → String
  | .instr i => renderInstr i
  | .truncated o => o.mnemonic ++ " truncated"
  | .unknown op => "unknown " ++ renderNumber op

end Sys2Proof.Machine
end

