-- ==== Sys2Proof/Machine/Loader.lean ====
section
/-! DEFINITION. The host's loader: program text to a byte image, or a refusal of the whole program
(70_reset_and_hazards.md R101, R102). It is the host's duty and not core behaviour (00_scope.md R4); it is here so that
the image a run starts from is exact. Text is a list of characters. -/

namespace Sys2Proof.Machine

/-- Why the loader refuses a program (R102). A refused program is never executed, even in part. -/
inductive LoadRefusal where
  /-- A line's first token is not one or more of `0` and `1`. -/
  | malformedToken (token : List Char)
  /-- A token's value exceeds 255 (90_conflicts.md C2: it is not truncated). -/
  | valueAbove255 (value : Nat)
  /-- The program has more than 256 byte lines. -/
  | tooManyBytes (count : Nat)
  deriving DecidableEq, Repr

/-- The lines of a text: the characters between newlines (DESIGN CHOICE, log entry 12). -/
def textLines : List Char → List (List Char)
  | [] => [[]]
  | c :: rest =>
    if c = '\n' then [] :: textLines rest
    else
      match textLines rest with
      | [] => [[c]]
      | line :: more => (c :: line) :: more

/-- The first token of a line: what stands between white space (DESIGN CHOICE, log entry 12). -/
def firstToken (line : List Char) : List Char :=
  (line.dropWhile Char.isWhitespace).takeWhile fun c => !c.isWhitespace

/-- A line is skipped if it is empty, holds only white space, or has `#` in its first column (R101, decision D11). -/
def skipLine (line : List Char) : Bool :=
  line.head? == some '#' || line.all Char.isWhitespace

/-- The value of a base-2 literal `[01]+`, of any length (R101, decision D11); `none` for any other token. -/
def binaryValue (token : List Char) : Option Nat :=
  if token ≠ [] ∧ token.all (fun c => c == '0' || c == '1') then
    some (token.foldl (fun n c => 2 * n + if c = '1' then 1 else 0) 0)
  else none

/-- The byte of one line that is not skipped. -/
def lineByte (line : List Char) : Except LoadRefusal Byte :=
  match binaryValue (firstToken line) with
  | none => .error (.malformedToken (firstToken line))
  | some n => if n < 256 then .ok (BitVec.ofNat 8 n) else .error (.valueAbove255 n)

/-- The bytes of the lines, in file order, failing at the first line that has none. -/
def linesBytes : List (List Char) → Except LoadRefusal (List Byte)
  | [] => .ok []
  | line :: rest =>
    if skipLine line then linesBytes rest
    else
      match lineByte line with
      | .error r => .error r
      | .ok b =>
        match linesBytes rest with
        | .error r => .error r
        | .ok bytes => .ok (b :: bytes)

/-- The image of a program text, complete and validated, or the refusal of the whole of it (R102). Where several refusals
apply, the first bad line's is answered, and the count of byte lines comes last (DESIGN CHOICE, log entry 21). -/
def parseProgram (text : List Char) : Except LoadRefusal (List Byte) :=
  match linesBytes (textLines text) with
  | .error r => .error r
  | .ok bytes => if bytes.length ≤ Config.memSize then .ok bytes else .error (.tooManyBytes bytes.length)

end Sys2Proof.Machine
end

