-- ==== Sys2Proof/Machine/Interface.lean ====
section
/-! DEFINITION. The core's interface to the host (10_state.md R29 to R35): loading an image, and the read-only views
status, inspect, out and trace. None of the views is state, and none changes the core. -/

namespace Sys2Proof.Machine

/-- `load(image)` (R30): the image's bytes from address `LOAD_BASE` up, and nothing but memory. The host must not load
an image of more than 256 bytes; `Session.move` refuses one. -/
def State.load (s : State) (image : List Byte) : State :=
  { s with M := s.M.writeBytes Config.loadBase image }

/-- The code of a cause, as `status` shows it (60_exceptions.md R85). -/
def Cause.code : Cause → Nat
  | .fetchOverrun _ => 1
  | .badRegister _ => 2

/-- The info recorded with a cause (R85): the faulting `pc`, or the operand byte. -/
def Cause.info : Cause → Nat
  | .fetchOverrun pc => pc.toNat
  | .badRegister operand => operand.toNat

/-- `status` (R32): the run state, which holds the cause and its info. 70_reset_and_hazards.md R103 has the host read it while
the core is not stepping, and R32 names no time; the model defines it of every state, between the steps of a core that
executes too, where `inspect` is refused (`Session.inspect`; DESIGN CHOICE, log entry 22). -/
def State.status (s : State) : RunState := s.run

/-- The code and the info that `status` shows of a Faulted core (R32, R85); none of another. -/
def State.faultRecord (s : State) : Option (Nat × Nat) :=
  match s.run with
  | .running => none
  | .halted => none
  | .faulted c => some (c.code, c.info)

/-- `inspect` (R33): the whole state. -/
def State.inspect (s : State) : State := s

/-- The `out` view (R34): the bytes emitted so far, in order. -/
def State.outView (s : State) : List Byte := s.out

/-- The record that the trace port presents before a step (R35). -/
structure TraceRecord where
  /-- The program counter. -/
  pc : PcWord
  /-- `M[pc]`, `M[pc+1]`, `M[pc+2]`; a cell past address 255 is absent. -/
  cells : List (Option Byte)
  /-- All eight registers; no flag is in the record (R22). -/
  regs : Vector Byte 8
  deriving DecidableEq, Repr

/-- `trace` (R35). -/
def State.trace (s : State) : TraceRecord where
  pc := s.pc
  cells := [s.byteAt? s.pc.toNat, s.byteAt? (s.pc.toNat + 1), s.byteAt? (s.pc.toNat + 2)]
  regs := s.x

/-- The diagnostic `UnknownOpcode(pc, op)` (40_execution_cycle.md R62). -/
structure Diagnostic where
  pc : PcWord
  op : Byte
  deriving DecidableEq, Repr

/-- The diagnostic that the next step emits on the trace port: one exactly when it fetches an unknown opcode. -/
def State.diagnostic (s : State) : Option Diagnostic :=
  match s.run, s.fetch with
  | .running, .unknown op => some ⟨s.pc, op⟩
  | _, _ => none

end Sys2Proof.Machine
end

