-- ==== Sys2Proof/Machine/Session.lean ====
section
/-! DEFINITION. Where the host stands in bringing the core up (70_reset_and_hazards.md R99, R103): reset, then load
once, then run; and the moves it has. What the host must not do is refused by name (R36: during a run it has no move at
all). The position is the host's and no state of the core, whose whole state is `State` (10_state.md R13; DESIGN CHOICE, log
entry 19). -/

namespace Sys2Proof.Machine

/-- How far the host has come since the last reset (R99). -/
inductive Phase where
  /-- Reset was applied, and nothing is loaded. -/
  | ready
  /-- An image was loaded, and `run` has not been invoked. -/
  | loaded
  /-- `run` was invoked: the core steps while it is Running. -/
  | launched
  deriving DecidableEq, Repr

/-- The moves of the host that change something (R103). -/
inductive HostMove where
  | reset
  | load (image : List Byte)
  | run
  deriving DecidableEq, Repr

/-- Why a move is refused: it breaks a duty of the host. -/
inductive MoveRefusal where
  /-- The core is executing: the host has no move (10_state.md R36). -/
  | coreExecuting
  /-- The move is out of the order of R99. -/
  | outOfOrder
  /-- The image has more than 256 bytes (10_state.md R30). -/
  | imageTooLong (length : Nat)
  deriving DecidableEq, Repr

/-- The core, and where the host stands. -/
structure Session where
  phase : Phase
  core : State
  deriving DecidableEq, Repr

/-- What `reset` leaves, whatever was before (10_state.md R29, decision D24). -/
def Session.fresh : Session := ⟨.ready, State.reset⟩

/-- The core is taking steps: `run` was invoked and the core is Running (10_state.md R31). -/
def Session.executing (h : Session) : Bool := h.phase == .launched && h.core.run == .running

/-- One move of the host (R99, R103). A `run` after the core has stopped changes nothing (10_state.md R31). -/
def Session.move (h : Session) (m : HostMove) : Except MoveRefusal Session :=
  if h.executing then .error .coreExecuting
  else
    match m, h.phase with
    | .reset, _ => .ok Session.fresh
    | .load image, .ready =>
      if image.length ≤ Config.memSize then .ok ⟨.loaded, h.core.load image⟩ else .error (.imageTooLong image.length)
    | .load _, _ => .error .outOfOrder
    | .run, .ready => .error .outOfOrder
    | .run, _ => .ok ⟨.launched, h.core⟩

/-- The host's load of a program text: the whole program is refused where its text is, and then nothing is loaded and
`run` stays out of order (R102); else its image is loaded. -/
def Session.loadText (h : Session) (text : List Char) : Except (LoadRefusal ⊕ MoveRefusal) Session :=
  match parseProgram text with
  | .error r => .error (.inl r)
  | .ok image =>
    match h.move (.load image) with
    | .error r => .error (.inr r)
    | .ok h' => .ok h'

/-- What `inspect` shows (10_state.md R33): the whole state, whenever the core is not taking steps. -/
def Session.inspect (h : Session) : Except MoveRefusal State :=
  if h.executing then .error .coreExecuting else .ok h.core.inspect

/-- The core's own move: one step once `run` was invoked, and none before (10_state.md R31). `none` where the step has
no next state. -/
def Session.tick (h : Session) : Option Session :=
  match h.phase with
  | .launched =>
    match step h.core with
    | .next s => some ⟨.launched, s⟩
    | .fault _ => none
    | .refused _ => none
  | .ready => some h
  | .loaded => some h

end Sys2Proof.Machine
end

