-- ==== Sys2Proof/Safety.lean ====
section
/-! DEFINITION. The terms that claims about runs use: the well-formed states, the stopped states and the hang. -/

namespace Sys2Proof.Machine

/-- At most one condition flag is set (10_state.md R23: exactly one after a CMP, and none before the first). -/
abbrev State.FlagsExclusive (s : State) : Prop :=
  ¬(s.E = true ∧ s.L = true) ∧ ¬(s.E = true ∧ s.G = true) ∧ ¬(s.L = true ∧ s.G = true)

/-- A recorded fault is one the core can record (60_exceptions.md R85, R86, R88): an overrun holds the faulting `pc`,
which is 254, 255 or 256; a bad register holds an operand byte of 8..255. A halted core has advanced past its HLT. -/
abbrev State.RunRecordOk (s : State) : Prop :=
  match s.run with
  | .running => True
  | .halted => 1 ≤ s.pc.toNat
  | .faulted (.fetchOverrun p) => p = s.pc ∧ 254 ≤ p.toNat
  | .faulted (.badRegister b) => 8 ≤ b.toNat ∧ s.pc.toNat ≤ 254

/-- The invariant of the machine: memory is in canonical form inside the 256 addresses (R14), `pc` is 0..256 (R19), the
flags exclude each other (R23), and the run state's record is one the core can make (R85). -/
structure State.Inv (s : State) : Prop where
  memory : s.M.wf
  pcRange : s.pc.toNat ≤ 256
  flags : s.FlagsExclusive
  record : s.RunRecordOk

/-- The bytes stand in memory from `pc` up, all of them inside the address space. -/
abbrev State.AtPc (s : State) (bytes : List Byte) : Prop :=
  s.pc.toNat + bytes.length ≤ Config.memSize ∧
    ∀ k (h : k < bytes.length), s.memRead (BitVec.ofNat 8 (s.pc.toNat + k)) = bytes[k]

/-- The opcode byte of the next fetch, where `pc` is an address. -/
def State.opcodeByte (s : State) : Byte := s.memRead (BitVec.ofNat 8 s.pc.toNat)

/-- The core takes no further step (40_execution_cycle.md R69): Halted or Faulted. -/
abbrev State.Stopped (s : State) : Prop := s.run ≠ .running

/-- The unknown-opcode hang (40_execution_cycle.md R63): Running, with an unknown opcode byte at `pc`. -/
def State.Hung (s : State) : Prop := s.run = .running ∧ ∃ op, s.fetch = .unknown op

/-- A run is safe as far as it records no fault. -/
def State.NotFaulted (s : State) : Prop := ∀ c, s.run ≠ .faulted c

end Sys2Proof.Machine
end

