-- ==== Sys2Proof/Certificates/Slice0/Obligations.lean ====
section
/-! DEFINITION. The statements for the provers. They quantify over EVERY state and operand; where a statement needs the
memory's canonical form or a `pc` inside 0..256 it says so, and both are parts of `State.Inv`, which `StepKeepsInvariant`
states of every step.

The per-instruction statements (`AddRule` and the like) each hold four things: the encoding; that `exec` answers a next
state with the result, and what that state keeps; the operand bytes on which it raises BadRegister; and up to which `pc`
the step of a running core executes it, and from which it raises FetchOverrun. -/

open Sys2Proof Sys2Proof.Machine

namespace Sys2Proof.Claims

/-- Every register but the listed ones is unchanged. -/
def RegsKeptBut (s t : State) (rs : List RegIdx) : Prop := ∀ r, r ∉ rs → t.reg r = s.reg r

/-- The three flags are unchanged. -/
def FlagsKept (s t : State) : Prop := t.E = s.E ∧ t.L = s.L ∧ t.G = s.G

/-- Every byte of memory reads as before. -/
def MemoryKept (s t : State) : Prop := ∀ a, t.memRead a = s.memRead a

/-- The run state and the output stream are unchanged. -/
def RunAndOutKept (s t : State) : Prop := t.run = s.run ∧ t.out = s.out

/-- What taking a fault leaves (60_exceptions.md R88): the same state but for the run state. -/
def Faulting (s : State) (c : Cause) : State := { s with run := .faulted c }

/-- A form with one register operand raises BadRegister exactly on the bytes 8..255, in every state. -/
def ChecksRegister (form : Byte → Instr) : Prop :=
  ∀ (s : State) (a : Byte), 8 ≤ a.toNat → exec (form a) s = .next (Faulting s (.badRegister a))

/-- A form with two register operands checks `ra` first, then `rb`, in every state. -/
def ChecksRegisters (form : Byte → Byte → Instr) : Prop :=
  ∀ (s : State) (a b : Byte),
    (8 ≤ a.toNat → exec (form a b) s = .next (Faulting s (.badRegister a))) ∧
      (a.toNat < 8 → 8 ≤ b.toNat → exec (form a b) s = .next (Faulting s (.badRegister b)))

/-- The operand byte at `pc+1`. -/
def operandA (s : State) : Byte := s.memRead (BitVec.ofNat 8 (s.pc.toNat + 1))

/-- The operand byte at `pc+2`. -/
def operandB (s : State) : Byte := s.memRead (BitVec.ofNat 8 (s.pc.toNat + 2))

/-- A running core with this opcode byte at `pc` executes the form with the operand bytes after it up to `pc = last`, and
raises FetchOverrun at an address above. -/
def FetchedUpTo (last : Nat) (op : Byte) (form : State → Instr) : Prop :=
  ∀ s : State, s.run = .running → s.pc.toNat ≤ 255 → s.opcodeByte = op →
    (s.pc.toNat ≤ last → step s = exec (form s) s) ∧
    (last < s.pc.toNat → step s = .next (Faulting s (.fetchOverrun s.pc)))

/-- The registers that R15's table says an instruction writes. -/
def writtenRegs : Instr → List RegIdx
  | .ldi a _ | .add a _ | .mul a _ => if h : a.toNat < 8 then [⟨a.toNat, h⟩] else []
  | .push _ => [7]
  | .pop a => if h : a.toNat < 8 then [⟨a.toNat, h⟩, 7] else [7]
  | .hlt | .prn _ | .cmp _ _ | .jmp _ | .jeq _ | .jne _ => []

/-- The 245 unknown opcode bytes, as R56 lists them. -/
def isUnknownByte (n : Nat) : Prop :=
  n = 0 ∨ (0x02 ≤ n ∧ n ≤ 0x44) ∨ (0x48 ≤ n ∧ n ≤ 0x53) ∨ (0x57 ≤ n ∧ n ≤ 0x81) ∨ (0x83 ≤ n ∧ n ≤ 0x9F) ∨
    n = 0xA1 ∨ (0xA3 ≤ n ∧ n ≤ 0xA6) ∨ (0xA8 ≤ n ∧ n ≤ 0xFF)

/-- Two states that can differ only in what no instruction reads: L, G and the output stream. -/
def AgreeOnWhatIsRead (s t : State) : Prop :=
  s.M = t.M ∧ s.x = t.x ∧ s.pc = t.pc ∧ s.E = t.E ∧ s.run = t.run

/-- One line of program text for a byte: its eight binary digits, most significant first. -/
def byteLine (b : Byte) : List Char :=
  [7, 6, 5, 4, 3, 2, 1, 0].map (fun k => if b.getLsbD k then '1' else '0') ++ ['\n']

/-- A line of program text with a token: `blanks` before it, and `after` behind it from white space on. It is no comment
line, so a token in the first column does not begin with `#`. -/
def IsTokenLine (blanks token after : List Char) : Prop :=
  (∀ c ∈ blanks, c.isWhitespace = true ∧ c ≠ '\n') ∧ token ≠ [] ∧ (∀ c ∈ token, c.isWhitespace = false) ∧
    '\n' ∉ after ∧ (∀ c ∈ after.head?, c.isWhitespace = true) ∧ (blanks = [] → token.head? ≠ some '#')

/-- The token is one or more of `0` and `1` (R101, decision D11). -/
def IsBinary (token : List Char) : Prop := token ≠ [] ∧ ∀ c ∈ token, c = '0' ∨ c = '1'

/-- The number that binary digits stand for, the most significant first. -/
def binaryNumber (token : List Char) : Nat := Nat.ofDigits 2 (token.reverse.map fun c => if c = '1' then 1 else 0)

end Sys2Proof.Claims

open Sys2Proof.Claims

/-! ### Encoding -/

/-- 30_encoding.md sections 1 to 3: a list of bytes decodes to an instruction and a rest exactly when it is that
instruction's encoding followed by the rest. Every operand byte value is admitted, 8..255 too (R57). -/
def Obligations.DecodeAndEncodeAgree : Prop :=
  ∀ (bytes : List Byte) (i : Instr) (rest : List Byte),
    decode bytes = .ok (i, rest) ↔ bytes = encode i ++ rest

/-- 30_encoding.md section 4: the decoder calls a first byte unknown exactly on the 245 values that R56 lists. -/
def Obligations.UnknownBytesAreTheListed : Prop :=
  ∀ (op : Byte) (rest : List Byte), decode (op :: rest) = .error (.unknownOpcode op) ↔ isUnknownByte op.toNat

/-- The decoder refuses a known opcode exactly when operand bytes are missing: the opcode alone sets the length, and
no byte after the operands matters (30_encoding.md R50, R57). -/
def Obligations.TruncatedExactlyWhenShort : Prop :=
  ∀ (o : Opcode) (rest : List Byte),
    decode (o.byte :: rest) = .error (.truncated o) ↔ rest.length + 1 < o.length

/-- Words written out from the encodings and examples of sections 41 to 44 decode to the instructions they stand for. -/
def Obligations.WrittenWordsDecode : Prop :=
  decode [0xA0, 0x00, 0x01] = .ok (.add 0 1, []) ∧ decode [0xA2, 0x00, 0x01] = .ok (.mul 0 1, []) ∧
  decode [0xA7, 0x00, 0x01] = .ok (.cmp 0 1, []) ∧ decode [0x82, 0x00, 0x08] = .ok (.ldi 0 8, []) ∧
  decode [0x47, 0x00] = .ok (.prn 0, []) ∧ decode [0x01] = .ok (.hlt, []) ∧ decode [0x54, 0x02] = .ok (.jmp 2, []) ∧
  decode [0x55, 0x03] = .ok (.jeq 3, []) ∧ decode [0x56, 0x03] = .ok (.jne 3, []) ∧
  decode [0x45, 0x00] = .ok (.push 0, []) ∧ decode [0x46, 0x01] = .ok (.pop 1, [])

/-! ### The step -/

/-- When the core is Running and the bytes at `pc` are those of an instruction, the step is `exec` of it at that very
state, and nothing is done around `exec`: `pc` still holds the opcode's address, and the instruction advances it. -/
def Obligations.StepRunsDecodedInstruction : Prop :=
  ∀ (s : State) (i : Instr), s.run = .running → s.AtPc (encode i) → step s = exec i s

/-- The order of the checks (40_execution_cycle.md sections 1 and 2, decisions D3 and D23; log entries 8 and 10): `pc`
past 255; then whether the opcode is known; then whether the used bytes fit; only then is the instruction executed, with
the operand bytes at `pc+1` and `pc+2` where its length has them. -/
def Obligations.StepFollowsTheCheckOrder : Prop :=
  ∀ s : State, s.run = .running →
    (255 < s.pc.toNat → step s = .next (Faulting s (.fetchOverrun s.pc))) ∧
    (s.pc.toNat ≤ 255 →
      (opcodeOf s.opcodeByte = none → step s = .next s) ∧
      (∀ o, opcodeOf s.opcodeByte = some o →
        (255 < s.pc.toNat + o.length - 1 → step s = .next (Faulting s (.fetchOverrun s.pc))) ∧
        (s.pc.toNat + o.length - 1 ≤ 255 →
          step s = exec (o.toInstr (s.memRead (BitVec.ofNat 8 (s.pc.toNat + 1)))
            (s.memRead (BitVec.ofNat 8 (s.pc.toNat + 2)))) s)))

/-- 40_execution_cycle.md section 1 (R62, R63): an unknown opcode changes no state and shows `UnknownOpcode(pc, op)` on the
trace port. That it hangs for ever, and is not a fault, is the spec's decision D7; that the hang is the self-loop, with no
sticky mark beside it, is the model's choice, which R63 allows (log entry 2). -/
def Obligations.UnknownOpcodeHangsForever : Prop :=
  ∀ s : State, s.run = .running → s.pc.toNat ≤ 255 → opcodeOf s.opcodeByte = none →
    step s = .next s ∧ s.diagnostic = some ⟨s.pc, s.opcodeByte⟩ ∧ ∀ k, Host.Core.run core k s = .next s

/-- 60_exceptions.md section 2 (R86, decision D3; log entry 8): a running core records FetchOverrun exactly when `pc` is
past 255, or its opcode is known and the instruction passes address 255; what it records is `pc`, and `status` shows it
with the code 1 and the info `pc` (R85, decision D8). -/
def Obligations.FetchOverrunExactlyPastTheEnd : Prop :=
  ∀ (s t : State) (p : PcWord), s.run = .running → step s = .next t →
    (t.run = .faulted (.fetchOverrun p) ↔
      p = s.pc ∧ (255 < s.pc.toNat ∨ ∃ o, opcodeOf s.opcodeByte = some o ∧ 255 < s.pc.toNat + o.length - 1)) ∧
    (t.run = .faulted (.fetchOverrun p) →
      t.status = .faulted (.fetchOverrun s.pc) ∧ t.faultRecord = some (1, s.pc.toNat))

/-- A core that is Halted or Faulted takes no step, however often it is stepped (10_state.md R31, 60_exceptions.md R90).
That the model answers the same state there, and not a stop, is the model's choice (log entry 1). -/
def Obligations.StoppedCoreStaysAsItIs : Prop :=
  ∀ (s : State) (k : Nat), s.Stopped → Host.Core.run core k s = .next s

/-- Every step of every state answers a next state: no fault and no refusal of the model stands in for behaviour the
spec gives. For a running core this is the spec's, with its faults as next states (log entry 3). That the step of a Halted
or Faulted core answers a next state is the model's choice (log entry 1), and that a `pc` of 257..511, which no run
reaches, raises FetchOverrun is read from R61's first line (DEDUCED, log entry 16). -/
def Obligations.StepAlwaysAnswersNext : Prop := ∀ s : State, ∃ t, step s = .next t

/-- 40_execution_cycle.md R67: the `pc` after a step of a running core, as numbers, so with no wrap: unchanged after a
raise and at an unknown opcode, else by the table; it is at most 256, and 256 faults at the next fetch. -/
def Obligations.PcAdvancesByTheTable : Prop :=
  ∀ s t : State, s.run = .running → step s = .next t →
    ((∃ c, t.run = .faulted c) → t.pc = s.pc) ∧
    (s.pc.toNat = 256 → t.run = .faulted (.fetchOverrun s.pc)) ∧
    (s.pc.toNat ≤ 255 → opcodeOf s.opcodeByte = none → t.pc = s.pc) ∧
    (∀ i, s.AtPc (encode i) → (∀ c, t.run ≠ .faulted c) → t.pc.toNat ≤ 256 ∧
      match i with
      | .hlt => t.pc.toNat = s.pc.toNat + 1 ∧ t.run = .halted
      | .ldi _ _ | .mul _ _ | .add _ _ | .cmp _ _ => t.pc.toNat = s.pc.toNat + 3
      | .prn _ | .push _ | .pop _ => t.pc.toNat = s.pc.toNat + 2
      | .jmp a => ∃ ra, a = regByte ra ∧ t.pc.toNat = (s.reg ra).toNat
      | .jeq a => ∃ ra, a = regByte ra ∧ t.pc.toNat = if s.E then (s.reg ra).toNat else s.pc.toNat + 2
      | .jne a => ∃ ra, a = regByte ra ∧ t.pc.toNat = if s.E then s.pc.toNat + 2 else (s.reg ra).toNat)

/-! ### Invariant and reset -/

/-- The headline invariant: from every state that meets it, reached or not, every step leads to one that meets it. -/
def Obligations.StepKeepsInvariant : Prop := ∀ s t : State, s.Inv → step s = .next t → t.Inv

/-- The state after reset meets the invariant. Its clause on the flags rests on their reset values, the spec's decision
D6 (log entry 6). -/
def Obligations.ResetMeetsInvariant : Prop := State.reset.Inv

/-- The reset values other than the decided zeros: `pc` is 0 (R20), SP is 0xF4 (R18), every cell is 0 (R14) and the run
state is Running (R26), which the source itself states; and the output stream is empty (R27), which 70_reset_and_hazards.md
R98 marks as derived. -/
def Obligations.ResetLeavesTheSourcesValues : Prop :=
  State.reset.pc.toNat = 0 ∧ State.reset.sp.toNat = 0xF4 ∧ (∀ a, State.reset.memRead a = 0) ∧
    State.reset.run = .running ∧ State.reset.out = []

/-- The reset values that the source does not state: r0..r6 are 0 and the flags are 0. They are the spec's decisions D5
and D6 (log entries 5 and 6), not facts about the source. -/
def Obligations.ResetLeavesTheDecidedZeros : Prop :=
  (∀ r : RegIdx, r ≠ 7 → State.reset.reg r = 0) ∧ State.reset.E = false ∧ State.reset.L = false ∧ State.reset.G = false

/-! ### Faults -/

/-- 60_exceptions.md section 3 (R88, decision D8; log entry 3): a step that raises changes the run state and nothing
else; the fault is precise, and `pc` keeps the faulting instruction's address. -/
def Obligations.FaultsArePrecise : Prop :=
  ∀ (s t : State) (c : Cause), s.run = .running → step s = .next t → t.run = .faulted c → t = Faulting s c

/-- 60_exceptions.md section 2 (R87, decision D4; log entry 7): what BadRegister records is a register operand of the
instruction at `pc`, and it is above 7; `status` shows it with the code 2 and the operand byte as info (R85, decision D8);
and an instruction with such an operand always raises. -/
def Obligations.BadRegisterExactlyOnBadOperands : Prop :=
  ∀ (s t : State) (i : Instr), s.run = .running → s.AtPc (encode i) → step s = .next t →
    (∀ v, t.run = .faulted (.badRegister v) →
      v ∈ i.regOperands ∧ 8 ≤ v.toNat ∧ t.status = .faulted (.badRegister v) ∧ t.faultRecord = some (2, v.toNat)) ∧
    ((∃ v, t.run = .faulted (.badRegister v)) ↔ i.WellFormed = false)

/-- 10_state.md section 7: the step of a running core halts it exactly when an HLT stands at `pc`. -/
def Obligations.HaltedOnlyByHlt : Prop :=
  ∀ s t : State, s.run = .running → step s = .next t → (t.run = .halted ↔ s.AtPc [0x01])

/-! ### What only one instruction writes -/

/-- 10_state.md section 5: no instruction but CMP changes a flag. -/
def Obligations.OnlyCmpWritesFlags : Prop :=
  ∀ (i : Instr) (s t : State), exec i s = .next t → i.opcode ≠ .cmp → FlagsKept s t

/-- 10_state.md section 2 and 20_memory.md section 2: no instruction but PUSH changes a byte of memory, and PUSH changes
at most the byte at the decremented SP. -/
def Obligations.OnlyPushWritesMemory : Prop :=
  ∀ (i : Instr) (s t : State), exec i s = .next t →
    (i.opcode ≠ .push → MemoryKept s t) ∧ (∀ a, a ≠ s.decSp.sp → t.memRead a = s.memRead a)

/-- 10_state.md section 3: an instruction changes no register that R15's table does not say it writes. -/
def Obligations.OnlyTabledRegistersAreWritten : Prop :=
  ∀ (i : Instr) (s t : State), exec i s = .next t → RegsKeptBut s t (writtenRegs i)

/-- 10_state.md section 8: only PRN appends to the output stream, one byte at a time, and nothing removes from it. -/
def Obligations.OnlyPrnAppendsToOutput : Prop :=
  ∀ s t : State, step s = .next t →
    t.out = s.out ∨ ∃ ra, s.AtPc [0x47, regByte ra] ∧ t.out = s.out ++ [s.reg ra]

/-- 10_state.md section 5 (R22), section 8 (R27): no step reads L, G or the output stream. Two runs from states that
differ only there stay alike in everything else and emit the same bytes, for any number of steps. -/
def Obligations.LessGreaterAndOutputAreNeverRead : Prop :=
  ∀ (k : Nat) (s t s' t' : State), AgreeOnWhatIsRead s t →
    Host.Core.run core k s = .next s' → Host.Core.run core k t = .next t' →
    AgreeOnWhatIsRead s' t' ∧ ∃ emitted, s'.out = s.out ++ emitted ∧ t'.out = t.out ++ emitted

/-! ### The instructions -/

/-- 41_alu.md R71. -/
def Obligations.AddRule : Prop :=
  (∀ a b, encode (.add a b) = [0xA0, a, b]) ∧
  (∀ (s : State) (ra rb : RegIdx), ∃ t, exec (.add (regByte ra) (regByte rb)) s = .next t ∧
    (t.reg ra).toNat = ((s.reg ra).toNat + (s.reg rb).toNat) % 256 ∧ t.pc = s.pc + 3 ∧
    RegsKeptBut s t [ra] ∧ FlagsKept s t ∧ MemoryKept s t ∧ RunAndOutKept s t) ∧
  ChecksRegisters .add ∧
  FetchedUpTo 253 0xA0 fun s => .add (operandA s) (operandB s)

/-- 41_alu.md R72. -/
def Obligations.MulRule : Prop :=
  (∀ a b, encode (.mul a b) = [0xA2, a, b]) ∧
  (∀ (s : State) (ra rb : RegIdx), ∃ t, exec (.mul (regByte ra) (regByte rb)) s = .next t ∧
    (t.reg ra).toNat = ((s.reg ra).toNat * (s.reg rb).toNat) % 256 ∧ t.pc = s.pc + 3 ∧
    RegsKeptBut s t [ra] ∧ FlagsKept s t ∧ MemoryKept s t ∧ RunAndOutKept s t) ∧
  ChecksRegisters .mul ∧
  FetchedUpTo 253 0xA2 fun s => .mul (operandA s) (operandB s)

/-- 41_alu.md section 4 (CMP). Which operand is the left one, seen only in L and G, is the spec's decision D19 (log entry
11). -/
def Obligations.CmpRule : Prop :=
  (∀ a b, encode (.cmp a b) = [0xA7, a, b]) ∧
  (∀ (s : State) (ra rb : RegIdx), ∃ t, exec (.cmp (regByte ra) (regByte rb)) s = .next t ∧
    (t.E = true ↔ s.reg ra = s.reg rb) ∧ (t.L = true ↔ (s.reg ra).toNat < (s.reg rb).toNat) ∧
    (t.G = true ↔ (s.reg ra).toNat > (s.reg rb).toNat) ∧ t.pc = s.pc + 3 ∧
    RegsKeptBut s t [] ∧ MemoryKept s t ∧ RunAndOutKept s t) ∧
  ChecksRegisters .cmp ∧
  FetchedUpTo 253 0xA7 fun s => .cmp (operandA s) (operandB s)

/-- 10_state.md R23: right after a CMP that raised nothing, exactly one flag is set, whatever the flags were. -/
def Obligations.CmpLeavesExactlyOneFlag : Prop :=
  ∀ (s : State) (ra rb : RegIdx), ∃ t, exec (.cmp (regByte ra) (regByte rb)) s = .next t ∧
    t.E.toNat + t.L.toNat + t.G.toNat = 1

/-- 42_data_io.md R74. Every immediate is legal. -/
def Obligations.LdiRule : Prop :=
  (∀ a imm, encode (.ldi a imm) = [0x82, a, imm]) ∧
  (∀ (s : State) (ra : RegIdx) (imm : Byte), ∃ t, exec (.ldi (regByte ra) imm) s = .next t ∧
    t.reg ra = imm ∧ (ra = 7 → t.sp = imm) ∧ t.pc = s.pc + 3 ∧
    RegsKeptBut s t [ra] ∧ FlagsKept s t ∧ MemoryKept s t ∧ RunAndOutKept s t) ∧
  (∀ imm, ChecksRegister fun a => .ldi a imm) ∧
  FetchedUpTo 253 0x82 fun s => .ldi (operandA s) (operandB s)

/-- 42_data_io.md R75. -/
def Obligations.PrnRule : Prop :=
  (∀ a, encode (.prn a) = [0x47, a]) ∧
  (∀ (s : State) (ra : RegIdx), ∃ t, exec (.prn (regByte ra)) s = .next t ∧
    t.out = s.out ++ [s.reg ra] ∧ t.pc = s.pc + 2 ∧ t.run = s.run ∧
    RegsKeptBut s t [] ∧ FlagsKept s t ∧ MemoryKept s t) ∧
  ChecksRegister .prn ∧ FetchedUpTo 254 0x47 fun s => .prn (operandA s)

/-- 43_control.md on HLT (R77): HLT halts at every address it can stand at, 255 among them, and no step is taken after it.
That `pc` advances by 1 and that nothing but reset leaves Halted is marked with the spec's decision D9 (log entry 17); that
a further step of the halted core answers the same state, as a next state, is the model's choice (log entry 1). -/
def Obligations.HltRule : Prop :=
  encode .hlt = [0x01] ∧
  (∀ s : State, ∃ t, exec .hlt s = .next t ∧ t.run = .halted ∧ t.pc = s.pc + 1 ∧ t.out = s.out ∧
    RegsKeptBut s t [] ∧ FlagsKept s t ∧ MemoryKept s t ∧ ∀ k, Host.Core.run core k t = .next t) ∧
  (∀ s : State, s.run = .running → s.pc.toNat ≤ 255 → s.opcodeByte = 0x01 → step s = exec .hlt s)

/-- 43_control.md R78. -/
def Obligations.JmpRule : Prop :=
  (∀ a, encode (.jmp a) = [0x54, a]) ∧
  (∀ (s : State) (ra : RegIdx), ∃ t, exec (.jmp (regByte ra)) s = .next t ∧
    t.pc.toNat = (s.reg ra).toNat ∧ RegsKeptBut s t [] ∧ FlagsKept s t ∧ MemoryKept s t ∧ RunAndOutKept s t) ∧
  ChecksRegister .jmp ∧ FetchedUpTo 254 0x54 fun s => .jmp (operandA s)

/-- 43_control.md on JEQ (R79). That the operand is checked when the jump is not taken is the spec's decision D4 (log
entry 7). -/
def Obligations.JeqRule : Prop :=
  (∀ a, encode (.jeq a) = [0x55, a]) ∧
  (∀ (s : State) (ra : RegIdx), ∃ t, exec (.jeq (regByte ra)) s = .next t ∧
    (s.E = true → t.pc.toNat = (s.reg ra).toNat) ∧ (s.E = false → t.pc = s.pc + 2) ∧
    RegsKeptBut s t [] ∧ FlagsKept s t ∧ MemoryKept s t ∧ RunAndOutKept s t) ∧
  ChecksRegister .jeq ∧ FetchedUpTo 254 0x55 fun s => .jeq (operandA s)

/-- 43_control.md on JNE (R80). That the operand is checked when the jump is not taken is the spec's decision D4 (log
entry 7). -/
def Obligations.JneRule : Prop :=
  (∀ a, encode (.jne a) = [0x56, a]) ∧
  (∀ (s : State) (ra : RegIdx), ∃ t, exec (.jne (regByte ra)) s = .next t ∧
    (s.E = false → t.pc.toNat = (s.reg ra).toNat) ∧ (s.E = true → t.pc = s.pc + 2) ∧
    RegsKeptBut s t [] ∧ FlagsKept s t ∧ MemoryKept s t ∧ RunAndOutKept s t) ∧
  ChecksRegister .jne ∧ FetchedUpTo 254 0x56 fun s => .jne (operandA s)

/-- 44_stack.md on PUSH (R81, R82). The address stored to is SP after the decrement, modulo 256. That PUSH r7 stores the
decremented SP is the spec's decision D15 (log entry 9). What the stored byte reads back as needs memory's canonical
form. -/
def Obligations.PushRule : Prop :=
  (∀ a, encode (.push a) = [0x45, a]) ∧
  (∀ (s : State) (ra : RegIdx), ∃ t, exec (.push (regByte ra)) s = .next t ∧
    t.sp.toNat = (s.sp.toNat + 255) % 256 ∧ t.sp = s.decSp.sp ∧ t.pc = s.pc + 2 ∧
    (s.M.wf → ra ≠ 7 → t.memRead s.decSp.sp = s.reg ra) ∧ (s.M.wf → ra = 7 → t.memRead s.decSp.sp = s.decSp.sp) ∧
    (∀ a, a ≠ s.decSp.sp → t.memRead a = s.memRead a) ∧
    RegsKeptBut s t [7] ∧ FlagsKept s t ∧ RunAndOutKept s t) ∧
  ChecksRegister .push ∧ FetchedUpTo 254 0x45 fun s => .push (operandA s)

/-- 44_stack.md on POP (R81, R83). That POP r7 increments the loaded byte is the spec's decision D15 (log entry 9). -/
def Obligations.PopRule : Prop :=
  (∀ a, encode (.pop a) = [0x46, a]) ∧
  (∀ (s : State) (ra : RegIdx), ∃ t, exec (.pop (regByte ra)) s = .next t ∧ t.pc = s.pc + 2 ∧
    (ra ≠ 7 → t.reg ra = s.memRead s.sp ∧ t.sp.toNat = (s.sp.toNat + 1) % 256) ∧
    (ra = 7 → t.sp.toNat = ((s.memRead s.sp).toNat + 1) % 256) ∧
    RegsKeptBut s t [ra, 7] ∧ FlagsKept s t ∧ MemoryKept s t ∧ RunAndOutKept s t) ∧
  ChecksRegister .pop ∧ FetchedUpTo 254 0x46 fun s => .pop (operandA s)

/-! ### Stack, memory and signed reading -/

/-- 44_stack.md on POP (R83) and property T5 of 95_test_vectors.md: PUSH and then POP of the same register restores every
register, SP too, and of memory changes at most the byte below the old top. For r7 it rests on the ordered reading of PUSH
r7 and POP r7, the spec's decision D15 (log entry 9). -/
def Obligations.PushThenPopRestores : Prop :=
  ∀ (s : State) (ra : RegIdx), s.M.wf → ∃ t u, exec (.push (regByte ra)) s = .next t ∧
    exec (.pop (regByte ra)) t = .next u ∧ u.x = s.x ∧ u.pc = s.pc + 4 ∧ FlagsKept s u ∧
    ∀ a, a ≠ s.decSp.sp → u.memRead a = s.memRead a

/-- 20_memory.md section 4 (R47, decision D13): a byte that PUSH wrote is the byte a later fetch at that address gets. A
running core that pushed the opcode of HLT and then continues at SP halts in its next step. The pushed byte is the
register's value after SP was decremented: for r7 that it is the decremented SP is the spec's decision D15 (log entry 9). -/
def Obligations.FetchSeesThePushedByte : Prop :=
  ∀ (s t : State) (ra : RegIdx), s.M.wf → exec (.push (regByte ra)) s = .next t →
    (t.jump t.sp).opcodeByte = s.decSp.reg ra ∧
    (s.run = .running → s.decSp.reg ra = 0x01 → ∃ u, step (t.jump t.sp) = .next u ∧ u.run = .halted)

/-- 20_memory.md section 4 (R46, decision D13): an instruction's bytes are read before its writes. A PUSH whose write
lands on its own operand byte uses the operand it fetched. The byte it stores is the register's value after SP was
decremented: for r7 that it is the decremented SP is the spec's decision D15 (log entry 9). -/
def Obligations.PushUsesTheFetchedOperand : Prop :=
  ∀ (s : State) (ra : RegIdx), s.run = .running → s.M.wf → s.AtPc [0x45, regByte ra] →
    s.decSp.sp.toNat = s.pc.toNat + 1 →
    ∃ t, step s = .next t ∧ t.memRead (BitVec.ofNat 8 (s.pc.toNat + 1)) = s.decSp.reg ra ∧ t.pc.toNat = s.pc.toNat + 2

/-- 41_alu.md section 1: read as two's complement, the bytes that ADD and MUL leave are the signed sum and product
reduced to 8 bits. -/
def Obligations.AluAgreesWithSignedReading : Prop :=
  ∀ (s t : State) (ra rb : RegIdx),
    (exec (.add (regByte ra) (regByte rb)) s = .next t →
      (t.reg ra).toInt = ((s.reg ra).toInt + (s.reg rb).toInt).bmod 256) ∧
    (exec (.mul (regByte ra) (regByte rb)) s = .next t →
      (t.reg ra).toInt = ((s.reg ra).toInt * (s.reg rb).toInt).bmod 256)

/-! ### The host's interface -/

/-- 10_state.md section 10 (R30, decision D11): loading an image of at most 256 bytes puts byte i at address i, leaves
the cells from its length up, changes nothing but memory, and keeps the canonical form. -/
def Obligations.LoadPlacesTheImage : Prop :=
  ∀ (s : State) (image : List Byte), s.M.wf → image.length ≤ 256 →
    (∀ k (h : k < image.length), (s.load image).memRead (BitVec.ofNat 8 k) = image[k]) ∧
    (∀ a : Addr, image.length ≤ a.toNat → (s.load image).memRead a = s.memRead a) ∧
    (s.load image).M.wf ∧ { s.load image with M := s.M } = s

/-- 10_state.md section 10 (R30, R31, R33, R36, decisions D9, D10, D11 and D18; log entry 14) and 70_reset_and_hazards.md
section 2 (R99): while the core executes every move of the host is refused, and inspect too; otherwise reset is accepted at
any time, an image of at most 256 bytes is loaded once, after reset and before run, run is accepted only after load, and a
further run of a stopped core changes nothing. The Session and its names for refused moves are the model's own (DESIGN
CHOICE, log entry 19). -/
def Obligations.HostMovesFollowTheBootOrder : Prop :=
  ∀ h : Session,
    (h.executing = true → (∀ m, h.move m = .error .coreExecuting) ∧ h.inspect = .error .coreExecuting) ∧
    (h.executing = false → h.move .reset = .ok ⟨.ready, State.reset⟩ ∧ h.inspect = .ok h.core) ∧
    (h.phase = .ready → (∀ image, image.length ≤ 256 → h.move (.load image) = .ok ⟨.loaded, h.core.load image⟩) ∧
      (∀ image, 256 < image.length → h.move (.load image) = .error (.imageTooLong image.length)) ∧
      h.move .run = .error .outOfOrder) ∧
    (h.phase = .loaded → h.move .run = .ok ⟨.launched, h.core⟩ ∧ ∀ image, h.move (.load image) = .error .outOfOrder) ∧
    (h.phase = .launched → h.executing = false → h.move .run = .ok h ∧ ∀ image, h.move (.load image) = .error .outOfOrder)

/-- 10_state.md section 10 (R31): before run the core takes no step; after it, the session moves as the core steps. The
Session and its tick are the model's own (DESIGN CHOICE, log entry 19), and so is that a launched core that has stopped
answers a next state, the same one (DESIGN CHOICE, log entry 1). -/
def Obligations.SessionStepsOnlyAfterRun : Prop :=
  ∀ h : Session,
    (h.phase ≠ .launched → h.tick = some h) ∧
    (h.phase = .launched → ∃ t, step h.core = .next t ∧ h.tick = some ⟨.launched, t⟩)

/-- 70_reset_and_hazards.md section 2 (R101, R102): a text of one byte a line, in eight binary digits, loads as those
bytes, and is refused when they are more than 256 (decision D11). That a line ends at the newline character is the model's
choice (log entry 12). -/
def Obligations.LoaderReadsByteLines : Prop :=
  ∀ bytes : List Byte,
    (bytes.length ≤ 256 → parseProgram (bytes.flatMap byteLine) = .ok bytes) ∧
    (256 < bytes.length → parseProgram (bytes.flatMap byteLine) = .error (.tooManyBytes bytes.length))

/-- 70_reset_and_hazards.md section 2 (R101): a line with `#` in its first column, and a line of white space alone,
change nothing of what the rest of the text loads as. That a line of white space alone is skipped is the spec's decision
D11; the newline as the end of a line and `Char.isWhitespace` as white space are the model's choice (log entry 12). -/
def Obligations.LoaderSkipsCommentsAndBlanks : Prop :=
  ∀ line text : List Char, '\n' ∉ line →
    parseProgram ('#' :: line ++ '\n' :: text) = parseProgram text ∧
    (line.all Char.isWhitespace = true → parseProgram (line ++ '\n' :: text) = parseProgram text)

/-- 70_reset_and_hazards.md section 2 (R101, R102, decision D11), on a line with a token after any number of good lines: a
token that is not `[01]+` and a value above 255 (90_conflicts.md C2) refuse the whole text, whatever follows; a value of at
most 255 is the next byte, however many digits it has and whatever stands on the line after it, whether lines follow or the
text ends there. The characters of lines and of white space are
the model's choice (log entry 12), and so is which refusal is answered when the text has several faults (log entry 21). -/
def Obligations.LoaderReadsOrRefusesATokenLine : Prop :=
  ∀ (bytes : List Byte) (blanks token after rest : List Char), IsTokenLine blanks token after →
    (¬ IsBinary token →
      parseProgram (bytes.flatMap byteLine ++ (blanks ++ token ++ after) ++ '\n' :: rest) =
        .error (.malformedToken token)) ∧
    (IsBinary token → 255 < binaryNumber token →
      parseProgram (bytes.flatMap byteLine ++ (blanks ++ token ++ after) ++ '\n' :: rest) =
        .error (.valueAbove255 (binaryNumber token))) ∧
    (IsBinary token → binaryNumber token ≤ 255 →
      parseProgram (bytes.flatMap byteLine ++ (blanks ++ token ++ after) ++ '\n' :: rest) =
        parseProgram (bytes.flatMap byteLine ++ byteLine (BitVec.ofNat 8 (binaryNumber token)) ++ rest)) ∧
    (IsBinary token → binaryNumber token ≤ 255 → bytes.length ≤ 255 →
      parseProgram (bytes.flatMap byteLine ++ (blanks ++ token ++ after)) =
        .ok (bytes ++ [BitVec.ofNat 8 (binaryNumber token)]))

/-- 70_reset_and_hazards.md section 2 (R99, R102): the host's load of a text takes the whole of it or nothing. A refused
text answers its refusal and no session, so that after a reset run stays refused; an accepted one has at most 256 bytes and
is loaded, after reset and only then. The Session is the model's own (DESIGN CHOICE, log entry 19). -/
def Obligations.LoadTextTakesTheWholeOrNothing : Prop :=
  ∀ (h : Session) (text : List Char),
    (∀ r, parseProgram text = .error r →
      h.loadText text = .error (.inl r) ∧ (h.phase = .ready → h.move .run = .error .outOfOrder)) ∧
    (∀ image, parseProgram text = .ok image → h.phase = .ready →
      image.length ≤ 256 ∧ h.loadText text = .ok ⟨.loaded, h.core.load image⟩) ∧
    (∀ h', h.loadText text = .ok h' →
      h.phase = .ready ∧ ∃ image, parseProgram text = .ok image ∧ h' = ⟨.loaded, h.core.load image⟩)

/-- 30_encoding.md section 5 (R59): disassembly lists at an address what a running core would fetch there. -/
def Obligations.DisassemblyAgreesWithFetch : Prop :=
  ∀ s : State, s.pc.toNat ≤ 255 →
    (∀ i, disassemble s.M (BitVec.ofNat 8 s.pc.toNat) = .instr i ↔ s.fetch = .instr i) ∧
    (∀ op, disassemble s.M (BitVec.ofNat 8 s.pc.toNat) = .unknown op ↔ s.fetch = .unknown op) ∧
    ((∃ o, disassemble s.M (BitVec.ofNat 8 s.pc.toNat) = .truncated o) ↔ s.fetch = .overrun)

/-- 10_state.md section 10 (R35, decision D17): the trace record shows `pc`, all eight registers and the three cells from
`pc` up, a cell past address 255 as absent. -/
def Obligations.TraceShowsTheRecord : Prop :=
  ∀ s : State, s.trace.pc = s.pc ∧ (∀ r : RegIdx, s.trace.regs[r] = s.reg r) ∧ s.trace.cells.length = 3 ∧
    ∀ k (h : k < s.trace.cells.length),
      (s.pc.toNat + k ≤ 255 → s.trace.cells[k] = some (s.memRead (BitVec.ofNat 8 (s.pc.toNat + k)))) ∧
      (255 < s.pc.toNat + k → s.trace.cells[k] = none)
end

