-- ==== Sys2Proof/Laws/Decode.lean ====
section
/-! SUPPORT. The opcode map: an opcode's byte looks up to that opcode and no byte to two. -/

namespace Sys2Proof

@[simp] theorem opcodeOf_byte (o : Opcode) : opcodeOf o.byte = some o := by
  cases o <;> decide

/-- A byte looks up to an opcode exactly when it is that opcode's byte. -/
theorem opcodeOf_eq_some {b : Byte} {o : Opcode} : opcodeOf b = some o ↔ b = o.byte := by
  constructor
  · intro h
    have := List.find?_some h
    exact (beq_iff_eq.mp this).symm
  · rintro rfl
    exact opcodeOf_byte o

theorem Opcode.byte_injective {o p : Opcode} (h : o.byte = p.byte) : o = p := by
  have := opcodeOf_byte o
  rw [h, opcodeOf_byte] at this
  exact (Option.some.inj this).symm

theorem Opcode.length_bounds (o : Opcode) : 1 ≤ o.length ∧ o.length ≤ 3 := by
  cases o <;> decide

@[simp] theorem Opcode.toInstr_opcode (o : Opcode) (a b : Byte) : (o.toInstr a b).opcode = o := by
  cases o <;> rfl

end Sys2Proof
end

