-- ==== Sys2Proof/Laws/Operands.lean ====
section
/-! SUPPORT. What the operand operations do: once when the operands are registers, once when one is not, and the
inversion of each. -/

namespace Sys2Proof.Machine

theorem regByte_toNat (r : RegIdx) : (regByte r).toNat = r.val := by
  have := r.isLt
  simp [regByte, Nat.mod_eq_of_lt (show r.val < 256 by omega)]

@[simp] theorem regIdx_regByte (r : RegIdx) : regIdx (regByte r) = .ok r := by
  have h := r.isLt
  have e := regByte_toNat r
  simp only [regIdx]
  rw [dif_pos (by omega)]
  exact congrArg _ (Fin.ext e)

theorem regIdx_bad {b : Byte} (h : 8 ≤ b.toNat) : regIdx b = .error (.badRegister b) := by
  simp only [regIdx]
  rw [dif_neg (by omega)]

/-- A byte below 8 is the byte of a register. -/
theorem eq_regByte {b : Byte} (h : b.toNat < 8) : ∃ r : RegIdx, b = regByte r :=
  ⟨⟨b.toNat, h⟩, BitVec.eq_of_toNat_eq (by rw [regByte_toNat])⟩

@[simp] theorem withReg_regByte (s : State) (r : RegIdx) (k : RegIdx → State) :
    withReg s (regByte r) k = .next (k r) := by
  simp [withReg]

theorem withReg_bad (s : State) {a : Byte} (h : 8 ≤ a.toNat) (k : RegIdx → State) :
    withReg s a k = .next (s.raise (.badRegister a)) := by
  simp [withReg, regIdx_bad h]

@[simp] theorem withRegs_regByte (s : State) (ra rb : RegIdx) (k : RegIdx → RegIdx → State) :
    withRegs s (regByte ra) (regByte rb) k = .next (k ra rb) := by
  simp [withRegs]

theorem withRegs_bad_left (s : State) {a : Byte} (b : Byte) (h : 8 ≤ a.toNat) (k : RegIdx → RegIdx → State) :
    withRegs s a b k = .next (s.raise (.badRegister a)) := by
  simp [withRegs, regIdx_bad h]

theorem withRegs_bad_right (s : State) (ra : RegIdx) {b : Byte} (h : 8 ≤ b.toNat) (k : RegIdx → RegIdx → State) :
    withRegs s (regByte ra) b k = .next (s.raise (.badRegister b)) := by
  simp [withRegs, withReg_bad s h]

/-- Everything an instruction with one register operand can do. -/
theorem withReg_cases (s : State) (a : Byte) (k : RegIdx → State) :
    (∃ ra, a = regByte ra ∧ withReg s a k = .next (k ra)) ∨
      (8 ≤ a.toNat ∧ withReg s a k = .next (s.raise (.badRegister a))) := by
  rcases Nat.lt_or_ge a.toNat 8 with h | h
  · obtain ⟨r, rfl⟩ := eq_regByte h
    exact .inl ⟨r, rfl, withReg_regByte s r k⟩
  · exact .inr ⟨h, withReg_bad s h k⟩

/-- Everything an instruction with two register operands can do. -/
theorem withRegs_cases (s : State) (a b : Byte) (k : RegIdx → RegIdx → State) :
    (∃ ra rb, a = regByte ra ∧ b = regByte rb ∧ withRegs s a b k = .next (k ra rb)) ∨
      (∃ v, 8 ≤ v.toNat ∧ (v = a ∨ v = b) ∧ withRegs s a b k = .next (s.raise (.badRegister v))) := by
  rcases Nat.lt_or_ge a.toNat 8 with ha | ha
  · obtain ⟨r, rfl⟩ := eq_regByte ha
    rcases Nat.lt_or_ge b.toNat 8 with hb | hb
    · obtain ⟨q, rfl⟩ := eq_regByte hb
      exact .inl ⟨r, q, rfl, rfl, withRegs_regByte s r q k⟩
    · exact .inr ⟨b, hb, .inr rfl, withRegs_bad_right s r hb k⟩
  · exact .inr ⟨a, ha, .inl rfl, withRegs_bad_left s b ha k⟩

end Sys2Proof.Machine
end

