-- ==== Sys2Proof/Laws/Exec.lean ====
section
/-! SUPPORT. Everything `exec` can do: the instruction's own effect, on register operands, or the raise of BadRegister
with nothing written. Invariants and frames follow from this one inversion. -/

namespace Sys2Proof.Machine

/-- The state that an instruction whose operands are registers leaves. -/
def Effect (s : State) : Instr → State → Prop
  | .hlt, t => t = s.halt.advance 1
  | .ldi a imm, t => ∃ ra, a = regByte ra ∧ t = (s.setReg ra imm).advance 3
  | .prn a, t => ∃ ra, a = regByte ra ∧ t = (s.output (s.reg ra)).advance 2
  | .mul a b, t => ∃ ra rb, a = regByte ra ∧ b = regByte rb ∧
      t = (s.setReg ra (aluMul (s.reg ra) (s.reg rb))).advance 3
  | .add a b, t => ∃ ra rb, a = regByte ra ∧ b = regByte rb ∧
      t = (s.setReg ra (aluAdd (s.reg ra) (s.reg rb))).advance 3
  | .cmp a b, t => ∃ ra rb, a = regByte ra ∧ b = regByte rb ∧ t = (s.compare (s.reg ra) (s.reg rb)).advance 3
  | .jmp a, t => ∃ ra, a = regByte ra ∧ t = s.jump (s.reg ra)
  | .jeq a, t => ∃ ra, a = regByte ra ∧ t = if s.E then s.jump (s.reg ra) else s.advance 2
  | .jne a, t => ∃ ra, a = regByte ra ∧ t = if s.E then s.advance 2 else s.jump (s.reg ra)
  | .push a, t => ∃ ra, a = regByte ra ∧ t = (s.decSp.storeTop ra).advance 2
  | .pop a, t => ∃ ra, a = regByte ra ∧ t = (s.loadTop ra).incSp.advance 2

/-- The inversion of one register operand, for a next state. -/
theorem withReg_next {s t : State} {a : Byte} {k : RegIdx → State} (h : withReg s a k = .next t) :
    (∃ ra, a = regByte ra ∧ t = k ra) ∨ (8 ≤ a.toNat ∧ t = s.raise (.badRegister a)) := by
  rcases withReg_cases s a k with ⟨ra, e, h'⟩ | ⟨hv, h'⟩ <;> rw [h'] at h <;> cases h
  · exact .inl ⟨ra, e, rfl⟩
  · exact .inr ⟨hv, rfl⟩

/-- The inversion of two register operands, for a next state. -/
theorem withRegs_next {s t : State} {a b : Byte} {k : RegIdx → RegIdx → State} (h : withRegs s a b k = .next t) :
    (∃ ra rb, a = regByte ra ∧ b = regByte rb ∧ t = k ra rb) ∨
      ∃ v, 8 ≤ v.toNat ∧ (v = a ∨ v = b) ∧ t = s.raise (.badRegister v) := by
  rcases withRegs_cases s a b k with ⟨ra, rb, ea, eb, h'⟩ | ⟨v, hv, e, h'⟩ <;> rw [h'] at h <;> cases h
  · exact .inl ⟨ra, rb, ea, eb, rfl⟩
  · exact .inr ⟨v, hv, e, rfl⟩

/-- A next state of `exec` is the instruction's effect, or the raise of BadRegister for one of its register operands. -/
theorem exec_next_cases {i : Instr} {s t : State} (h : exec i s = .next t) :
    Effect s i t ∨ ∃ v ∈ i.regOperands, 8 ≤ v.toNat ∧ t = s.raise (.badRegister v) := by
  have one : ∀ {a : Byte} {k : RegIdx → State}, withReg s a k = .next t →
      (∃ ra, a = regByte ra ∧ t = k ra) ∨ ∃ v ∈ [a], 8 ≤ v.toNat ∧ t = s.raise (.badRegister v) := fun h =>
    (withReg_next h).imp id fun ⟨hv, e⟩ => ⟨_, by simp, hv, e⟩
  have two : ∀ {a b : Byte} {k : RegIdx → RegIdx → State}, withRegs s a b k = .next t →
      (∃ ra rb, a = regByte ra ∧ b = regByte rb ∧ t = k ra rb) ∨
        ∃ v ∈ [a, b], 8 ≤ v.toNat ∧ t = s.raise (.badRegister v) := fun h =>
    (withRegs_next h).imp id fun ⟨v, hv, e, et⟩ => ⟨v, by simpa using e, hv, et⟩
  cases i with
  | hlt => exact .inl (Host.Outcome.next.inj h).symm
  | ldi a imm => exact one h
  | prn a => exact one h
  | mul a b => exact two h
  | add a b => exact two h
  | cmp a b => exact two h
  | jmp a => exact one h
  | jeq a => exact one h
  | jne a => exact one h
  | push a => exact one h
  | pop a => exact one h

end Sys2Proof.Machine
end

