-- ==== Sys2Proof/Laws/Fetch.lean ====
section
/-! SUPPORT. The bytes a fetch has, by where `pc` stands; and the step of a running and of a stopped core. -/

namespace Sys2Proof.Machine

/-- Past address 255 there is no byte. -/
theorem State.fetchBytes_past {s : State} (h : 256 ≤ s.pc.toNat) : s.fetchBytes = [] := by
  have e : Config.memSize = 256 := rfl
  have h0 : ¬ s.pc.toNat < 256 := by omega
  have h1 : ¬ s.pc.toNat + 1 < 256 := by omega
  have h2 : ¬ s.pc.toNat + 2 < 256 := by omega
  simp [State.fetchBytes, State.byteAt?, e, h0, h1, h2]

/-- At address 255 there is one byte. -/
theorem State.fetchBytes_last {s : State} (h : s.pc.toNat = 255) :
    s.fetchBytes = [s.memRead (BitVec.ofNat 8 s.pc.toNat)] := by
  have e : Config.memSize = 256 := rfl
  simp [State.fetchBytes, State.byteAt?, e, h]

/-- At address 254 there are two. -/
theorem State.fetchBytes_last_two {s : State} (h : s.pc.toNat = 254) :
    s.fetchBytes = [s.memRead (BitVec.ofNat 8 s.pc.toNat), s.memRead (BitVec.ofNat 8 (s.pc.toNat + 1))] := by
  have e : Config.memSize = 256 := rfl
  simp [State.fetchBytes, State.byteAt?, e, h]

/-- Below, there are three. -/
theorem State.fetchBytes_three {s : State} (h : s.pc.toNat ≤ 253) :
    s.fetchBytes = [s.memRead (BitVec.ofNat 8 s.pc.toNat), s.memRead (BitVec.ofNat 8 (s.pc.toNat + 1)),
      s.memRead (BitVec.ofNat 8 (s.pc.toNat + 2))] := by
  have e : Config.memSize = 256 := rfl
  have h0 : s.pc.toNat < 256 := by omega
  have h1 : s.pc.toNat + 1 < 256 := by omega
  have h2 : s.pc.toNat + 2 < 256 := by omega
  simp [State.fetchBytes, State.byteAt?, e, h0, h1, h2]

/-- Where `pc` is an address, the first byte a fetch has is the one there. -/
theorem State.fetchBytes_head {s : State} (h : s.pc.toNat ≤ 255) :
    ∃ rest, s.fetchBytes = s.memRead (BitVec.ofNat 8 s.pc.toNat) :: rest := by
  rcases Nat.lt_or_ge s.pc.toNat 254 with h1 | h1
  · exact ⟨_, State.fetchBytes_three (by omega)⟩
  · rcases Nat.lt_or_ge s.pc.toNat 255 with h2 | h2
    · exact ⟨_, State.fetchBytes_last_two (by omega)⟩
    · exact ⟨_, State.fetchBytes_last (by omega)⟩

/-- The step of a core that is Running, by what it fetches. -/
theorem step_running {s : State} (h : s.run = .running) :
    step s = match s.fetch with
      | .instr i => exec i s
      | .unknown _ => .next s
      | .overrun => .next (s.raise (.fetchOverrun s.pc)) := by
  simp only [step, h]
  rfl

end Sys2Proof.Machine
end

