-- ==== Sys2Proof/Laws/Loader.lean ====
section
/-! SUPPORT. How a program text splits into lines, what the token of a line is, and what the lines before a line
contribute (70_reset_and_hazards.md R101). -/

namespace Sys2Proof.Machine

/-- A text whose first line is `line`. -/
theorem textLines_line {line : List Char} (h : '\n' ∉ line) (rest : List Char) :
    textLines (line ++ '\n' :: rest) = line :: textLines rest := by
  induction line with
  | nil => simp [textLines]
  | cons c l ih =>
    obtain ⟨hc, hl⟩ := List.mem_cons.not.trans not_or |>.mp h
    simp only [List.cons_append, textLines, if_neg (Ne.symm hc), ih hl]

/-- A text that is one line. -/
theorem textLines_single {line : List Char} (h : '\n' ∉ line) : textLines line = [line] := by
  induction line with
  | nil => rfl
  | cons c l ih =>
    obtain ⟨hc, hl⟩ := List.mem_cons.not.trans not_or |>.mp h
    simp only [textLines, if_neg (Ne.symm hc), ih hl]

/-- The token of a line, between the white space before it and the white space after it. -/
theorem firstToken_line {blanks token after : List Char} (hb : ∀ c ∈ blanks, c.isWhitespace = true)
    (ht : ∀ c ∈ token, c.isWhitespace = false) (hne : token ≠ []) (ha : ∀ c ∈ after.head?, c.isWhitespace = true) :
    firstToken (blanks ++ token ++ after) = token := by
  have drop : (blanks ++ token ++ after).dropWhile Char.isWhitespace = token ++ after := by
    rw [List.append_assoc, List.dropWhile_append_of_pos hb]
    cases token with
    | nil => exact absurd rfl hne
    | cons c l => simp [ht c (by simp)]
  rw [firstToken, drop, List.takeWhile_append_of_pos (by simpa using ht)]
  cases after with
  | nil => simp
  | cons c l => simp [ha c (by simp)]

/-- Lines that all give bytes, before other lines. -/
theorem linesBytes_append {lines : List (List Char)} {bytes : List Byte} (h : linesBytes lines = .ok bytes)
    (more : List (List Char)) :
    linesBytes (lines ++ more) =
      match linesBytes more with
      | .error r => .error r
      | .ok tail => .ok (bytes ++ tail) := by
  induction lines generalizing bytes with
  | nil => cases h; cases hm : linesBytes more <;> simp [hm]
  | cons line rest ih =>
    simp only [linesBytes, List.cons_append] at h ⊢
    split
    · rename_i hs; rw [if_pos hs] at h; exact ih h
    · rename_i hs
      rw [if_neg hs] at h
      cases hl : lineByte line with
      | error r => simp [hl] at h
      | ok b =>
        cases hr : linesBytes rest with
        | error r => simp [hl, hr] at h
        | ok bs =>
          simp only [hl, hr, Except.ok.injEq] at h
          subst h
          rw [ih hr]
          cases linesBytes more <;> simp

end Sys2Proof.Machine
end

