-- ==== Sys2Proof/Laws/Memory.lean ====
section
/-! SUPPORT. The laws of memory: what a read sees after a write, that every operation keeps the canonical form, and that
two memories in canonical form that read alike are equal. -/

namespace Sys2Proof.Machine

/-- An address below every listed one reads as the reset contents. -/
theorem Memory.read_of_lt {m : Memory} {a : Addr} (h : ∀ c ∈ m, a.toNat < c.1) : m.read a = Config.memReset := by
  induction m with
  | nil => rfl
  | cons c rest ih =>
    have hc := h c (by simp)
    simp only [Memory.read]
    rw [if_neg (by omega)]
    exact ih fun d hd => h d (by simp [hd])

theorem Memory.wf_cons {c : Host.Cell} {m : Memory} :
    Memory.wf (c :: m) ↔ (∀ d ∈ m, c.1 < d.1) ∧ c.1 < Config.memSize ∧ c.2 ≠ Config.memReset ∧ m.wf := by
  simp only [Memory.wf, List.pairwise_cons, List.forall_mem_cons]
  tauto

theorem Memory.wf_nil : Memory.wf [] := by simp [Memory.wf]

/-- In a memory in canonical form, the cells after the first say nothing of the addresses up to it. -/
theorem Memory.read_tail {c : Host.Cell} {rest : Memory} (h : Memory.wf (c :: rest)) {a : Addr} (ha : a.toNat ≤ c.1) :
    Memory.read rest a = Config.memReset :=
  Memory.read_of_lt fun d hd => by have := (Memory.wf_cons.mp h).1 d hd; omega

/-- A read of the address just written. -/
theorem Memory.read_write_same {m : Memory} (h : m.wf) (a : Addr) (v : Byte) : (m.write a v).read a = v := by
  induction m with
  | nil =>
    simp only [Memory.write]
    split <;> simp_all [Memory.read]
  | cons c rest ih =>
    have low := fun ha => Memory.read_tail h (a := a) ha
    have ih := ih (Memory.wf_cons.mp h).2.2.2
    simp only [Memory.write]
    split
    · split
      · rename_i hlt hv
        rw [Memory.read, if_neg (by omega), low (by omega), hv]
      · simp [Memory.read]
    · split
      · rename_i he
        split
        · rename_i hv
          rw [low (by omega), hv]
        · rw [Memory.read, if_pos he.symm]
      · rename_i he
        rw [Memory.read, if_neg (fun e => he e.symm), ih]

/-- A read of another address than the one written. -/
theorem Memory.read_write_ne (m : Memory) {a b : Addr} (v : Byte) (hb : b ≠ a) : (m.write a v).read b = m.read b := by
  have ne : a.toNat ≠ b.toNat := fun e => hb (BitVec.eq_of_toNat_eq e.symm)
  induction m with
  | nil =>
    simp only [Memory.write]
    split <;> simp [Memory.read, ne]
  | cons c rest ih =>
    simp only [Memory.write]
    split
    · split <;> simp [Memory.read, ne]
    · split
      · rename_i he
        have : c.1 ≠ b.toNat := by omega
        split <;> simp [Memory.read, this]
      · simp [Memory.read, ih]

/-- A read after a write: the byte written at that address, the old byte at every other (20_memory.md R42, R45). -/
theorem Memory.read_write {m : Memory} (h : m.wf) (a b : Addr) (v : Byte) :
    (m.write a v).read b = if b = a then v else m.read b := by
  split
  · rename_i e; rw [e, Memory.read_write_same h]
  · rename_i e; exact Memory.read_write_ne m v e

/-- Where a write puts its cells: every one was listed before, or is the one written. -/
theorem Memory.mem_write {m : Memory} {a : Addr} {v : Byte} {c : Host.Cell} (h : c ∈ m.write a v) :
    c ∈ m ∨ (c = (a.toNat, v) ∧ v ≠ Config.memReset) := by
  induction m with
  | nil =>
    simp only [Memory.write] at h
    split at h <;> simp_all
  | cons d rest ih =>
    simp only [Memory.write] at h
    split at h
    · split at h
      · exact .inl h
      · rcases List.mem_cons.mp h with h | h
        · exact .inr ⟨h, ‹_›⟩
        · exact .inl h
    · split at h
      · rename_i e
        split at h
        · exact .inl (by simp [h])
        · rcases List.mem_cons.mp h with h | h
          · exact .inr ⟨by rw [h, e], ‹_›⟩
          · exact .inl (by simp [h])
      · rcases List.mem_cons.mp h with h | h
        · exact .inl (by simp [h])
        · rcases ih h with h | h
          · exact .inl (by simp [h])
          · exact .inr h

/-- A write keeps the canonical form. -/
theorem Memory.write_wf {m : Memory} (h : m.wf) (a : Addr) (v : Byte) : (m.write a v).wf := by
  have ha : a.toNat < Config.memSize := a.isLt
  induction m with
  | nil =>
    simp only [Memory.write]
    split
    · exact Memory.wf_nil
    · exact Memory.wf_cons.mpr ⟨by simp, ha, ‹_›, Memory.wf_nil⟩
  | cons c rest ih =>
    obtain ⟨hlt, hc, hv, hrest⟩ := Memory.wf_cons.mp h
    simp only [Memory.write]
    split
    · split
      · exact h
      · refine Memory.wf_cons.mpr ⟨fun d hd => ?_, ha, ‹_›, h⟩
        rcases List.mem_cons.mp hd with hd | hd
        · rw [hd]; assumption
        · have := hlt d hd; omega
    · split
      · split
        · exact hrest
        · exact Memory.wf_cons.mpr ⟨hlt, hc, ‹_›, hrest⟩
      · refine Memory.wf_cons.mpr ⟨fun d hd => ?_, hc, hv, ih hrest⟩
        rcases Memory.mem_write hd with hd | hd
        · exact hlt d hd
        · rw [hd.1]; show c.1 < a.toNat; omega

theorem Memory.writeBytes_wf {m : Memory} (h : m.wf) (base : Nat) (bytes : List Byte) : (m.writeBytes base bytes).wf := by
  induction bytes generalizing m base with
  | nil => exact h
  | cons v rest ih =>
    simp only [Memory.writeBytes]
    split
    · exact ih (Memory.write_wf h _ _) _
    · exact h

/-- Storing bytes below an address leaves it alone. -/
theorem Memory.read_writeBytes_of_lt {m : Memory} (h : m.wf) {base : Nat} {a : Addr} (ha : a.toNat < base)
    (bytes : List Byte) : (m.writeBytes base bytes).read a = m.read a := by
  induction bytes generalizing m base with
  | nil => rfl
  | cons v rest ih =>
    simp only [Memory.writeBytes]
    split
    · rename_i hb
      rw [ih (Memory.write_wf h _ _) (by omega), Memory.read_write h, if_neg]
      intro e
      have : (BitVec.ofNat 8 base).toNat = base := by
        rw [BitVec.toNat_ofNat]; exact Nat.mod_eq_of_lt hb
      rw [e] at ha
      omega
    · rfl

/-- What an address reads as after bytes are stored from `base` up: its own byte of them, or what it read before. -/
theorem Memory.read_writeBytes {m : Memory} (h : m.wf) (base : Nat) (bytes : List Byte) (a : Addr) :
    (m.writeBytes base bytes).read a =
      if base ≤ a.toNat then (bytes[a.toNat - base]?).getD (m.read a) else m.read a := by
  induction bytes generalizing m base with
  | nil => simp [Memory.writeBytes]
  | cons v rest ih =>
    by_cases hb : base < Config.memSize
    · have tn : (BitVec.ofNat 8 base).toNat = base := by
        rw [BitVec.toNat_ofNat]; exact Nat.mod_eq_of_lt hb
      simp only [Memory.writeBytes, if_pos hb]
      by_cases e : a.toNat = base
      · have ea : BitVec.ofNat 8 base = a := BitVec.eq_of_toNat_eq (by rw [tn, e])
        rw [Memory.read_writeBytes_of_lt (Memory.write_wf h _ _) (by omega), Memory.read_write h, if_pos ea.symm]
        simp [e]
      · have ne : a ≠ BitVec.ofNat 8 base := fun h => e (by rw [h, tn])
        rw [ih (Memory.write_wf h _ _), Memory.read_write h, if_neg ne]
        by_cases le : base ≤ a.toNat
        · rw [if_pos (by omega), if_pos le]
          obtain ⟨k, hk⟩ : ∃ k, a.toNat - base = k + 1 := ⟨a.toNat - base - 1, by omega⟩
          rw [hk, show a.toNat - (base + 1) = k by omega, List.getElem?_cons_succ]
        · rw [if_neg (by omega), if_neg le]
    · have : a.toNat < 256 := a.isLt
      have hb' : ¬ base ≤ a.toNat := by
        have : Config.memSize = 256 := rfl
        omega
      simp only [Memory.writeBytes, if_neg hb, if_neg hb']

/-- Memories in canonical form are determined by what they read as. -/
theorem Memory.wf_ext {m n : Memory} (hm : m.wf) (hn : n.wf) (h : ∀ a, m.read a = n.read a) : m = n := by
  have toNat : ∀ {k : Nat}, k < Config.memSize → (BitVec.ofNat 8 k).toNat = k := fun hk => by
    rw [BitVec.toNat_ofNat]; exact Nat.mod_eq_of_lt hk
  have head : ∀ {c : Host.Cell} {rest : Memory}, Memory.wf (c :: rest) →
      Memory.read (c :: rest) (BitVec.ofNat 8 c.1) = c.2 := fun hw => by
    have := (Memory.wf_cons.mp hw).2.1
    simp [Memory.read, toNat this]
  have below : ∀ {c : Host.Cell} {rest : Memory} {k : Nat}, Memory.wf (c :: rest) → k < c.1 →
      Memory.read (c :: rest) (BitVec.ofNat 8 k) = Config.memReset := fun {c rest k} hw hk => by
    obtain ⟨hlt, hc, -, -⟩ := Memory.wf_cons.mp hw
    apply Memory.read_of_lt
    rw [toNat (by omega)]
    intro d hd
    rcases List.mem_cons.mp hd with hd | hd
    · rw [hd]; exact hk
    · have := hlt d hd; omega
  induction m generalizing n with
  | nil =>
    cases n with
    | nil => rfl
    | cons d rest =>
      have := h (BitVec.ofNat 8 d.1)
      rw [head hn] at this
      exact absurd this.symm (Memory.wf_cons.mp hn).2.2.1
  | cons c rest ih =>
    cases n with
    | nil =>
      have := h (BitVec.ofNat 8 c.1)
      rw [head hm] at this
      exact absurd this (Memory.wf_cons.mp hm).2.2.1
    | cons d rest' =>
      obtain ⟨hlt, hc, hv, hrest⟩ := Memory.wf_cons.mp hm
      obtain ⟨hlt', hd, hv', hrest'⟩ := Memory.wf_cons.mp hn
      have ek : c.1 = d.1 := by
        rcases Nat.lt_trichotomy c.1 d.1 with k | k | k
        · have := h (BitVec.ofNat 8 c.1)
          rw [head hm, below hn k] at this
          exact absurd this hv
        · exact k
        · have := h (BitVec.ofNat 8 d.1)
          rw [head hn, below hm k] at this
          exact absurd this.symm hv'
      have ev : c.2 = d.2 := by
        have := h (BitVec.ofNat 8 c.1)
        rw [head hm, ek, head hn] at this
        exact this
      have ecd : c = d := Prod.ext ek ev
      subst ecd
      congr 1
      refine ih hrest hrest' fun a => ?_
      by_cases e : c.1 = a.toNat
      · rw [Memory.read_of_lt fun z hz => by rw [← e]; exact hlt z hz,
          Memory.read_of_lt fun z hz => by rw [← e]; exact hlt' z hz]
      · simpa [Memory.read, e] using h a

end Sys2Proof.Machine
end

