-- ==== Sys2Proof/Laws/PerInstr.lean ====
section
/-! SUPPORT. A fact about every instruction as syntax, one lemma for each constructor: an instruction encodes to as many
bytes as its opcode's length says, the register operands among its operand bytes (30_encoding.md R49, R50). -/

namespace Sys2Proof.Laws.EncodedShape

def Statement (i : Instr) : Prop :=
  (encode i).length = i.length ∧ (encode i).head? = some i.opcode.byte ∧ i.regOperands <+: (encode i).tail

theorem hlt : Statement .hlt :=
  ⟨rfl, rfl, by simp [encode, Instr.regOperands, Instr.operands]⟩
theorem ldi (ra imm : Byte) : Statement (.ldi ra imm) :=
  ⟨rfl, rfl, by simp [encode, Instr.regOperands, Instr.operands]⟩
theorem prn (ra : Byte) : Statement (.prn ra) :=
  ⟨rfl, rfl, by simp [encode, Instr.regOperands, Instr.operands]⟩
theorem mul (ra rb : Byte) : Statement (.mul ra rb) :=
  ⟨rfl, rfl, by simp [encode, Instr.regOperands, Instr.operands]⟩
theorem add (ra rb : Byte) : Statement (.add ra rb) :=
  ⟨rfl, rfl, by simp [encode, Instr.regOperands, Instr.operands]⟩
theorem cmp (ra rb : Byte) : Statement (.cmp ra rb) :=
  ⟨rfl, rfl, by simp [encode, Instr.regOperands, Instr.operands]⟩
theorem jmp (ra : Byte) : Statement (.jmp ra) :=
  ⟨rfl, rfl, by simp [encode, Instr.regOperands, Instr.operands]⟩
theorem jeq (ra : Byte) : Statement (.jeq ra) :=
  ⟨rfl, rfl, by simp [encode, Instr.regOperands, Instr.operands]⟩
theorem jne (ra : Byte) : Statement (.jne ra) :=
  ⟨rfl, rfl, by simp [encode, Instr.regOperands, Instr.operands]⟩
theorem push (ra : Byte) : Statement (.push ra) :=
  ⟨rfl, rfl, by simp [encode, Instr.regOperands, Instr.operands]⟩
theorem pop (ra : Byte) : Statement (.pop ra) :=
  ⟨rfl, rfl, by simp [encode, Instr.regOperands, Instr.operands]⟩

end Sys2Proof.Laws.EncodedShape
end

