-- ==== Sys2Proof/Laws/State.lean ====
section
/-! SUPPORT. One lemma per field per update of State, and what `reg` and `memRead` see of it: no proof has to unfold an
operation of Machine/Ops.lean to know which field it wrote. -/

namespace Sys2Proof.Machine

variable (s : State)

@[simp] theorem State.memWrite_M (a : Addr) (v : Byte) : (s.memWrite a v).M = s.M.write a v := rfl
@[simp] theorem State.memWrite_x (a : Addr) (v : Byte) : (s.memWrite a v).x = s.x := rfl
@[simp] theorem State.memWrite_pc (a : Addr) (v : Byte) : (s.memWrite a v).pc = s.pc := rfl
@[simp] theorem State.memWrite_E (a : Addr) (v : Byte) : (s.memWrite a v).E = s.E := rfl
@[simp] theorem State.memWrite_L (a : Addr) (v : Byte) : (s.memWrite a v).L = s.L := rfl
@[simp] theorem State.memWrite_G (a : Addr) (v : Byte) : (s.memWrite a v).G = s.G := rfl
@[simp] theorem State.memWrite_run (a : Addr) (v : Byte) : (s.memWrite a v).run = s.run := rfl
@[simp] theorem State.memWrite_out (a : Addr) (v : Byte) : (s.memWrite a v).out = s.out := rfl
@[simp] theorem State.memWrite_reg (a : Addr) (v : Byte) (q : RegIdx) : (s.memWrite a v).reg q = s.reg q := rfl
@[simp] theorem State.memWrite_sp (a : Addr) (v : Byte) : (s.memWrite a v).sp = s.sp := rfl

@[simp] theorem State.setReg_M (r : RegIdx) (v : Byte) : (s.setReg r v).M = s.M := rfl
@[simp] theorem State.setReg_x (r : RegIdx) (v : Byte) : (s.setReg r v).x = s.x.set r v := rfl
@[simp] theorem State.setReg_pc (r : RegIdx) (v : Byte) : (s.setReg r v).pc = s.pc := rfl
@[simp] theorem State.setReg_E (r : RegIdx) (v : Byte) : (s.setReg r v).E = s.E := rfl
@[simp] theorem State.setReg_L (r : RegIdx) (v : Byte) : (s.setReg r v).L = s.L := rfl
@[simp] theorem State.setReg_G (r : RegIdx) (v : Byte) : (s.setReg r v).G = s.G := rfl
@[simp] theorem State.setReg_run (r : RegIdx) (v : Byte) : (s.setReg r v).run = s.run := rfl
@[simp] theorem State.setReg_out (r : RegIdx) (v : Byte) : (s.setReg r v).out = s.out := rfl
@[simp] theorem State.setReg_memRead (r : RegIdx) (v : Byte) (p : Addr) : (s.setReg r v).memRead p = s.memRead p := rfl

@[simp] theorem State.setSp_M (v : Byte) : (s.setSp v).M = s.M := rfl
@[simp] theorem State.setSp_x (v : Byte) : (s.setSp v).x = s.x.set Config.spIndex v := rfl
@[simp] theorem State.setSp_pc (v : Byte) : (s.setSp v).pc = s.pc := rfl
@[simp] theorem State.setSp_E (v : Byte) : (s.setSp v).E = s.E := rfl
@[simp] theorem State.setSp_L (v : Byte) : (s.setSp v).L = s.L := rfl
@[simp] theorem State.setSp_G (v : Byte) : (s.setSp v).G = s.G := rfl
@[simp] theorem State.setSp_run (v : Byte) : (s.setSp v).run = s.run := rfl
@[simp] theorem State.setSp_out (v : Byte) : (s.setSp v).out = s.out := rfl
@[simp] theorem State.setSp_memRead (v : Byte) (p : Addr) : (s.setSp v).memRead p = s.memRead p := rfl

@[simp] theorem State.advance_M (n : Nat) : (s.advance n).M = s.M := rfl
@[simp] theorem State.advance_x (n : Nat) : (s.advance n).x = s.x := rfl
@[simp] theorem State.advance_pc (n : Nat) : (s.advance n).pc = s.pc + BitVec.ofNat 9 n := rfl
@[simp] theorem State.advance_E (n : Nat) : (s.advance n).E = s.E := rfl
@[simp] theorem State.advance_L (n : Nat) : (s.advance n).L = s.L := rfl
@[simp] theorem State.advance_G (n : Nat) : (s.advance n).G = s.G := rfl
@[simp] theorem State.advance_run (n : Nat) : (s.advance n).run = s.run := rfl
@[simp] theorem State.advance_out (n : Nat) : (s.advance n).out = s.out := rfl
@[simp] theorem State.advance_reg (n : Nat) (q : RegIdx) : (s.advance n).reg q = s.reg q := rfl
@[simp] theorem State.advance_sp (n : Nat) : (s.advance n).sp = s.sp := rfl
@[simp] theorem State.advance_memRead (n : Nat) (p : Addr) : (s.advance n).memRead p = s.memRead p := rfl

@[simp] theorem State.jump_M (t : Addr) : (s.jump t).M = s.M := rfl
@[simp] theorem State.jump_x (t : Addr) : (s.jump t).x = s.x := rfl
@[simp] theorem State.jump_pc (t : Addr) : (s.jump t).pc = t.setWidth 9 := rfl
@[simp] theorem State.jump_E (t : Addr) : (s.jump t).E = s.E := rfl
@[simp] theorem State.jump_L (t : Addr) : (s.jump t).L = s.L := rfl
@[simp] theorem State.jump_G (t : Addr) : (s.jump t).G = s.G := rfl
@[simp] theorem State.jump_run (t : Addr) : (s.jump t).run = s.run := rfl
@[simp] theorem State.jump_out (t : Addr) : (s.jump t).out = s.out := rfl
@[simp] theorem State.jump_reg (t : Addr) (q : RegIdx) : (s.jump t).reg q = s.reg q := rfl
@[simp] theorem State.jump_sp (t : Addr) : (s.jump t).sp = s.sp := rfl
@[simp] theorem State.jump_memRead (t : Addr) (p : Addr) : (s.jump t).memRead p = s.memRead p := rfl

@[simp] theorem State.setFlags_M (e l g : Bool) : (s.setFlags e l g).M = s.M := rfl
@[simp] theorem State.setFlags_x (e l g : Bool) : (s.setFlags e l g).x = s.x := rfl
@[simp] theorem State.setFlags_pc (e l g : Bool) : (s.setFlags e l g).pc = s.pc := rfl
@[simp] theorem State.setFlags_E (e l g : Bool) : (s.setFlags e l g).E = e := rfl
@[simp] theorem State.setFlags_L (e l g : Bool) : (s.setFlags e l g).L = l := rfl
@[simp] theorem State.setFlags_G (e l g : Bool) : (s.setFlags e l g).G = g := rfl
@[simp] theorem State.setFlags_run (e l g : Bool) : (s.setFlags e l g).run = s.run := rfl
@[simp] theorem State.setFlags_out (e l g : Bool) : (s.setFlags e l g).out = s.out := rfl
@[simp] theorem State.setFlags_reg (e l g : Bool) (q : RegIdx) : (s.setFlags e l g).reg q = s.reg q := rfl
@[simp] theorem State.setFlags_sp (e l g : Bool) : (s.setFlags e l g).sp = s.sp := rfl
@[simp] theorem State.setFlags_memRead (e l g : Bool) (p : Addr) : (s.setFlags e l g).memRead p = s.memRead p := rfl

@[simp] theorem State.compare_M (u v : Byte) : (s.compare u v).M = s.M := rfl
@[simp] theorem State.compare_x (u v : Byte) : (s.compare u v).x = s.x := rfl
@[simp] theorem State.compare_pc (u v : Byte) : (s.compare u v).pc = s.pc := rfl
@[simp] theorem State.compare_E (u v : Byte) : (s.compare u v).E = decide (u.toNat = v.toNat) := rfl
@[simp] theorem State.compare_L (u v : Byte) : (s.compare u v).L = decide (u.toNat < v.toNat) := rfl
@[simp] theorem State.compare_G (u v : Byte) : (s.compare u v).G = decide (v.toNat < u.toNat) := rfl
@[simp] theorem State.compare_run (u v : Byte) : (s.compare u v).run = s.run := rfl
@[simp] theorem State.compare_out (u v : Byte) : (s.compare u v).out = s.out := rfl
@[simp] theorem State.compare_reg (u v : Byte) (q : RegIdx) : (s.compare u v).reg q = s.reg q := rfl
@[simp] theorem State.compare_sp (u v : Byte) : (s.compare u v).sp = s.sp := rfl
@[simp] theorem State.compare_memRead (u v : Byte) (p : Addr) : (s.compare u v).memRead p = s.memRead p := rfl

@[simp] theorem State.output_M (v : Byte) : (s.output v).M = s.M := rfl
@[simp] theorem State.output_x (v : Byte) : (s.output v).x = s.x := rfl
@[simp] theorem State.output_pc (v : Byte) : (s.output v).pc = s.pc := rfl
@[simp] theorem State.output_E (v : Byte) : (s.output v).E = s.E := rfl
@[simp] theorem State.output_L (v : Byte) : (s.output v).L = s.L := rfl
@[simp] theorem State.output_G (v : Byte) : (s.output v).G = s.G := rfl
@[simp] theorem State.output_run (v : Byte) : (s.output v).run = s.run := rfl
@[simp] theorem State.output_out (v : Byte) : (s.output v).out = s.out ++ [v] := rfl
@[simp] theorem State.output_reg (v : Byte) (q : RegIdx) : (s.output v).reg q = s.reg q := rfl
@[simp] theorem State.output_sp (v : Byte) : (s.output v).sp = s.sp := rfl
@[simp] theorem State.output_memRead (v : Byte) (p : Addr) : (s.output v).memRead p = s.memRead p := rfl

@[simp] theorem State.halt_M : s.halt.M = s.M := rfl
@[simp] theorem State.halt_x : s.halt.x = s.x := rfl
@[simp] theorem State.halt_pc : s.halt.pc = s.pc := rfl
@[simp] theorem State.halt_E : s.halt.E = s.E := rfl
@[simp] theorem State.halt_L : s.halt.L = s.L := rfl
@[simp] theorem State.halt_G : s.halt.G = s.G := rfl
@[simp] theorem State.halt_run : s.halt.run = .halted := rfl
@[simp] theorem State.halt_out : s.halt.out = s.out := rfl
@[simp] theorem State.halt_reg (q : RegIdx) : s.halt.reg q = s.reg q := rfl
@[simp] theorem State.halt_sp : s.halt.sp = s.sp := rfl
@[simp] theorem State.halt_memRead (p : Addr) : s.halt.memRead p = s.memRead p := rfl

@[simp] theorem State.raise_M (c : Cause) : (s.raise c).M = s.M := rfl
@[simp] theorem State.raise_x (c : Cause) : (s.raise c).x = s.x := rfl
@[simp] theorem State.raise_pc (c : Cause) : (s.raise c).pc = s.pc := rfl
@[simp] theorem State.raise_E (c : Cause) : (s.raise c).E = s.E := rfl
@[simp] theorem State.raise_L (c : Cause) : (s.raise c).L = s.L := rfl
@[simp] theorem State.raise_G (c : Cause) : (s.raise c).G = s.G := rfl
@[simp] theorem State.raise_run (c : Cause) : (s.raise c).run = .faulted c := rfl
@[simp] theorem State.raise_out (c : Cause) : (s.raise c).out = s.out := rfl
@[simp] theorem State.raise_reg (c : Cause) (q : RegIdx) : (s.raise c).reg q = s.reg q := rfl
@[simp] theorem State.raise_sp (c : Cause) : (s.raise c).sp = s.sp := rfl
@[simp] theorem State.raise_memRead (c : Cause) (p : Addr) : (s.raise c).memRead p = s.memRead p := rfl

@[simp] theorem State.load_M (image : List Byte) : (s.load image).M = s.M.writeBytes Config.loadBase image := rfl
@[simp] theorem State.load_x (image : List Byte) : (s.load image).x = s.x := rfl
@[simp] theorem State.load_pc (image : List Byte) : (s.load image).pc = s.pc := rfl
@[simp] theorem State.load_E (image : List Byte) : (s.load image).E = s.E := rfl
@[simp] theorem State.load_L (image : List Byte) : (s.load image).L = s.L := rfl
@[simp] theorem State.load_G (image : List Byte) : (s.load image).G = s.G := rfl
@[simp] theorem State.load_run (image : List Byte) : (s.load image).run = s.run := rfl
@[simp] theorem State.load_out (image : List Byte) : (s.load image).out = s.out := rfl
@[simp] theorem State.load_reg (image : List Byte) (q : RegIdx) : (s.load image).reg q = s.reg q := rfl
@[simp] theorem State.load_sp (image : List Byte) : (s.load image).sp = s.sp := rfl

@[simp] theorem State.decSp_M : s.decSp.M = s.M := rfl
@[simp] theorem State.decSp_x : s.decSp.x = s.x.set Config.spIndex (s.sp - 1) := rfl
@[simp] theorem State.decSp_pc : s.decSp.pc = s.pc := rfl
@[simp] theorem State.decSp_E : s.decSp.E = s.E := rfl
@[simp] theorem State.decSp_L : s.decSp.L = s.L := rfl
@[simp] theorem State.decSp_G : s.decSp.G = s.G := rfl
@[simp] theorem State.decSp_run : s.decSp.run = s.run := rfl
@[simp] theorem State.decSp_out : s.decSp.out = s.out := rfl
@[simp] theorem State.decSp_memRead (p : Addr) : s.decSp.memRead p = s.memRead p := rfl

@[simp] theorem State.incSp_M : s.incSp.M = s.M := rfl
@[simp] theorem State.incSp_x : s.incSp.x = s.x.set Config.spIndex (s.sp + 1) := rfl
@[simp] theorem State.incSp_pc : s.incSp.pc = s.pc := rfl
@[simp] theorem State.incSp_E : s.incSp.E = s.E := rfl
@[simp] theorem State.incSp_L : s.incSp.L = s.L := rfl
@[simp] theorem State.incSp_G : s.incSp.G = s.G := rfl
@[simp] theorem State.incSp_run : s.incSp.run = s.run := rfl
@[simp] theorem State.incSp_out : s.incSp.out = s.out := rfl
@[simp] theorem State.incSp_memRead (p : Addr) : s.incSp.memRead p = s.memRead p := rfl

@[simp] theorem State.storeTop_M (r : RegIdx) : (s.storeTop r).M = s.M.write s.sp (s.reg r) := rfl
@[simp] theorem State.storeTop_x (r : RegIdx) : (s.storeTop r).x = s.x := rfl
@[simp] theorem State.storeTop_pc (r : RegIdx) : (s.storeTop r).pc = s.pc := rfl
@[simp] theorem State.storeTop_E (r : RegIdx) : (s.storeTop r).E = s.E := rfl
@[simp] theorem State.storeTop_L (r : RegIdx) : (s.storeTop r).L = s.L := rfl
@[simp] theorem State.storeTop_G (r : RegIdx) : (s.storeTop r).G = s.G := rfl
@[simp] theorem State.storeTop_run (r : RegIdx) : (s.storeTop r).run = s.run := rfl
@[simp] theorem State.storeTop_out (r : RegIdx) : (s.storeTop r).out = s.out := rfl
@[simp] theorem State.storeTop_reg (r : RegIdx) (q : RegIdx) : (s.storeTop r).reg q = s.reg q := rfl
@[simp] theorem State.storeTop_sp (r : RegIdx) : (s.storeTop r).sp = s.sp := rfl

@[simp] theorem State.loadTop_M (r : RegIdx) : (s.loadTop r).M = s.M := rfl
@[simp] theorem State.loadTop_x (r : RegIdx) : (s.loadTop r).x = s.x.set r (s.memRead s.sp) := rfl
@[simp] theorem State.loadTop_pc (r : RegIdx) : (s.loadTop r).pc = s.pc := rfl
@[simp] theorem State.loadTop_E (r : RegIdx) : (s.loadTop r).E = s.E := rfl
@[simp] theorem State.loadTop_L (r : RegIdx) : (s.loadTop r).L = s.L := rfl
@[simp] theorem State.loadTop_G (r : RegIdx) : (s.loadTop r).G = s.G := rfl
@[simp] theorem State.loadTop_run (r : RegIdx) : (s.loadTop r).run = s.run := rfl
@[simp] theorem State.loadTop_out (r : RegIdx) : (s.loadTop r).out = s.out := rfl
@[simp] theorem State.loadTop_memRead (r : RegIdx) (p : Addr) : (s.loadTop r).memRead p = s.memRead p := rfl

@[simp] theorem State.placeWord_M (nbits w : Nat) : (s.placeWord nbits w).M = s.M.writeBytes s.pc.toNat (tableWordBytes nbits w) := rfl
@[simp] theorem State.placeWord_x (nbits w : Nat) : (s.placeWord nbits w).x = s.x := rfl
@[simp] theorem State.placeWord_pc (nbits w : Nat) : (s.placeWord nbits w).pc = s.pc := rfl
@[simp] theorem State.placeWord_E (nbits w : Nat) : (s.placeWord nbits w).E = s.E := rfl
@[simp] theorem State.placeWord_L (nbits w : Nat) : (s.placeWord nbits w).L = s.L := rfl
@[simp] theorem State.placeWord_G (nbits w : Nat) : (s.placeWord nbits w).G = s.G := rfl
@[simp] theorem State.placeWord_run (nbits w : Nat) : (s.placeWord nbits w).run = .running := rfl
@[simp] theorem State.placeWord_out (nbits w : Nat) : (s.placeWord nbits w).out = s.out := rfl
@[simp] theorem State.placeWord_reg (nbits w : Nat) (q : RegIdx) : (s.placeWord nbits w).reg q = s.reg q := rfl
@[simp] theorem State.placeWord_sp (nbits w : Nat) : (s.placeWord nbits w).sp = s.sp := rfl

@[simp] theorem State.raise_status (c : Cause) : (s.raise c).status = .faulted c := rfl
@[simp] theorem State.raise_faultRecord (c : Cause) : (s.raise c).faultRecord = some (c.code, c.info) := rfl
@[simp] theorem State.halt_faultRecord : s.halt.faultRecord = none := rfl

/-- A register read after a register write: the value written, or the old one. -/
theorem State.setReg_reg (r q : RegIdx) (v : Byte) : (s.setReg r v).reg q = if q = r then v else s.reg q := by
  simp only [State.setReg, State.reg, Fin.getElem_fin, Vector.getElem_set, Fin.ext_iff, eq_comm]

@[simp] theorem State.setReg_reg_same (r : RegIdx) (v : Byte) : (s.setReg r v).reg r = v := by
  simp [State.setReg_reg]

theorem State.setReg_reg_ne {r q : RegIdx} (v : Byte) (h : q ≠ r) : (s.setReg r v).reg q = s.reg q := by
  simp [State.setReg_reg, h]

@[simp] theorem State.setSp_sp (v : Byte) : (s.setSp v).sp = v := by
  simp [State.setSp, State.sp]

theorem State.setSp_reg (q : RegIdx) (v : Byte) : (s.setSp v).reg q = if q = 7 then v else s.reg q :=
  s.setReg_reg 7 q v

@[simp] theorem State.decSp_sp : s.decSp.sp = s.sp - 1 := s.setSp_sp _

@[simp] theorem State.incSp_sp : s.incSp.sp = s.sp + 1 := s.setSp_sp _

theorem State.decSp_reg (q : RegIdx) : s.decSp.reg q = if q = 7 then s.sp - 1 else s.reg q := s.setSp_reg q _

theorem State.incSp_reg (q : RegIdx) : s.incSp.reg q = if q = 7 then s.sp + 1 else s.reg q := s.setSp_reg q _

theorem State.loadTop_reg (r q : RegIdx) : (s.loadTop r).reg q = if q = r then s.memRead s.sp else s.reg q :=
  s.setReg_reg r q _

/-- SP is register 7. -/
theorem State.sp_eq : s.sp = s.reg 7 := rfl

/-- Two register files that read alike are the same. -/
theorem State.x_ext {s t : State} (h : ∀ r, s.reg r = t.reg r) : s.x = t.x := by
  apply Vector.ext
  intro i hi
  exact h ⟨i, hi⟩

end Sys2Proof.Machine
end

