-- ==== Sys2Proof/Tests/Slice0.lean ====
section
/-! SUPPORT. The model's own tests. Expected results come from the spec: the test vectors A1..E7 of 95_test_vectors.md
(named in each comment), the encodings of 30_encoding.md R54, and the examples of sections 41 to 44. Then the
witnesses: for each statement with hypotheses, a concrete state and operands that meet them together, at a boundary. -/

namespace Sys2Proof.Tests

open Sys2Proof.Machine

/-- The reset state with bytes placed at an address and `pc` there. -/
def ready (p : Nat) (bytes : List Byte) : State :=
  { State.reset with M := Memory.writeBytes [] p bytes, pc := BitVec.ofNat 9 p }

/-- The state after one step. -/
def after (s : State) : Option State :=
  match step s with
  | .next t => some t
  | .fault _ => none
  | .refused _ => none

/-- The instruction and the count of bytes left that the decoder reads. -/
def read (bytes : List Byte) : Option (Instr × Nat) :=
  match decode bytes with
  | .ok (i, rest) => some (i, rest.length)
  | .error _ => none

/-! ### Well-formedness: one ill-formed term for each check -/

theorem test_wf_ok : Instr.WellFormed (.add 7 0) = true := by decide
theorem test_wf_hlt : Instr.WellFormed .hlt = true := by decide
theorem test_wf_imm_unchecked : Instr.WellFormed (.ldi 7 0xFF) = true := by decide
theorem test_wf_ldi_refused : Instr.WellFormed (.ldi 8 0) = false := by decide
theorem test_wf_prn_refused : Instr.WellFormed (.prn 0xFF) = false := by decide
theorem test_wf_mul_left_refused : Instr.WellFormed (.mul 8 0) = false := by decide
theorem test_wf_mul_right_refused : Instr.WellFormed (.mul 0 8) = false := by decide
theorem test_wf_add_left_refused : Instr.WellFormed (.add 9 0) = false := by decide
theorem test_wf_add_right_refused : Instr.WellFormed (.add 0 9) = false := by decide
theorem test_wf_cmp_left_refused : Instr.WellFormed (.cmp 8 0) = false := by decide
theorem test_wf_cmp_right_refused : Instr.WellFormed (.cmp 0 8) = false := by decide
theorem test_wf_jmp_refused : Instr.WellFormed (.jmp 8) = false := by decide
theorem test_wf_jeq_refused : Instr.WellFormed (.jeq 10) = false := by decide
theorem test_wf_jne_refused : Instr.WellFormed (.jne 10) = false := by decide
theorem test_wf_push_refused : Instr.WellFormed (.push 8) = false := by decide
theorem test_wf_pop_refused : Instr.WellFormed (.pop 12) = false := by decide

/-! ### Decoding: words written out bit by bit from 30_encoding.md R54 and R49 -/

theorem test_decode_hlt : read [0b00000001] = some (.hlt, 0) := by decide
theorem test_decode_ldi : read [0b10000010, 0b00000000, 0b00001000] = some (.ldi 0 8, 0) := by decide
theorem test_decode_prn : read [0b01000111, 0b00000110] = some (.prn 6, 0) := by decide
theorem test_decode_mul : read [0b10100010, 0b00000011, 0b00000100] = some (.mul 3 4, 0) := by decide
theorem test_decode_add : read [0b10100000, 0b00000001, 0b00000010] = some (.add 1 2, 0) := by decide
theorem test_decode_cmp : read [0b10100111, 0b00000101, 0b00000110] = some (.cmp 5 6, 0) := by decide
theorem test_decode_jmp : read [0b01010100, 0b00000010] = some (.jmp 2, 0) := by decide
theorem test_decode_jeq : read [0b01010101, 0b00000011] = some (.jeq 3, 0) := by decide
theorem test_decode_jne : read [0b01010110, 0b00000011] = some (.jne 3, 0) := by decide
theorem test_decode_push : read [0b01000101, 0b00000111] = some (.push 7, 0) := by decide
theorem test_decode_pop : read [0b01000110, 0b11111111] = some (.pop 0xFF, 0) := by decide
/-- R57: bytes after the operands are not part of the instruction. -/
theorem test_decode_leaves_rest : read [0x47, 0x01, 0x82, 0x00] = some (.prn 1, 2) := by decide
/-- R56: an unknown opcode gets no length from its upper bits. -/
theorem test_decode_unknown : decode [0xA1, 0x00, 0x01] = .error (.unknownOpcode 0xA1) := by rfl
theorem test_decode_truncated : decode [0x82, 0x00] = .error (.truncated .ldi) := by rfl
theorem test_encode_cmp : encode (.cmp 5 6) = [0xA7, 0x05, 0x06] := by decide
theorem test_table_word_full : decodeTableWord 24 0x080082 = some (.ldi 0 8) := by decide
theorem test_table_word_short : decodeTableWord 8 0xA0 = some (.add 0 0) := by decide
theorem test_table_word_unknown : decodeTableWord 8 0x00 = none := by decide
theorem test_fetch_word_runs : (after (State.reset.withFetchWord 24 0x080082)).map (fun t => (t.reg 0, t.pc)) = some (8, 3) := by decide

/-! ### One step of each instruction -/

/-- A2. -/
theorem test_add_wraps : (after (((ready 0 [0xA0, 0, 1]).setReg 0 0xFF).setReg 1 0x01)).map (fun t => (t.reg 0, t.pc, t.E)) =
    some (0x00, 3, false) := by decide
/-- A5: SP is an ordinary register here. -/
theorem test_add_moves_sp : (after ((ready 0 [0xA0, 7, 0]).setReg 0 0x0C)).map State.sp = some 0x00 := by decide
/-- A12. -/
theorem test_mul_low_byte : (after (((ready 0 [0xA2, 0, 1]).setReg 0 0xFF).setReg 1 0xFF)).map (fun t => (t.reg 0, t.pc)) =
    some (0x01, 3) := by decide
/-- A14. -/
theorem test_mul_squares : (after ((ready 0 [0xA2, 3, 3]).setReg 3 0x0F)).map (fun t => t.reg 3) = some 0xE1 := by decide
/-- A20. -/
theorem test_cmp_unsigned : (after (((ready 0 [0xA7, 0, 1]).setReg 0 0x80).setReg 1 0x7F)).map (fun t => (t.E, t.L, t.G)) =
    some (false, false, true) := by decide
/-- A23: all three flags are rewritten. -/
theorem test_cmp_equal : (after ((((ready 0 [0xA7, 0, 1]).setReg 0 5).setReg 1 5).setFlags false true false)).map
    (fun t => (t.E, t.L, t.G)) = some (true, false, false) := by decide
/-- B6: the instruction ends at 255 and `pc` is 256. -/
theorem test_ldi_ends_at_255 : (after (ready 253 [0x82, 0, 7])).map (fun t => (t.reg 0, t.pc, t.run)) =
    some (0x07, 256, .running) := by decide
/-- B4. -/
theorem test_ldi_sets_sp : (after (ready 0 [0x82, 7, 0x10])).map State.sp = some 0x10 := by decide
/-- B10. -/
theorem test_prn_emits_sp : (after (ready 0 [0x47, 7])).map (fun t => (t.out, t.pc)) = some ([0xF4], 2) := by decide
/-- B12. -/
theorem test_prn_bad_register : (after (ready 0 [0x47, 0xFF])).map (fun t => (t.run, t.out)) =
    some (.faulted (.badRegister 255), []) := by decide
/-- C2. -/
theorem test_hlt_at_255 : (after (ready 255 [0x01])).map (fun t => (t.pc, t.run)) = some (256, .halted) := by decide
/-- C6. -/
theorem test_jmp_to_255 : (after ((ready 0 [0x54, 2]).setReg 2 0xFF)).map State.pc = some 255 := by decide
/-- C8. -/
theorem test_jmp_bad_register : (after (ready 0 [0x54, 8])).map (fun t => (t.run, t.pc)) =
    some (.faulted (.badRegister 8), 0) := by decide
/-- C11: L is not tested. -/
theorem test_jeq_ignores_less : (after (((ready 0 [0x55, 1]).setReg 1 0x40).setFlags false true false)).map State.pc =
    some 2 := by decide
/-- C13: checked even when not taken. -/
theorem test_jeq_checks_untaken : (after (ready 0 [0x55, 0x0A])).map State.run = some (.faulted (.badRegister 10)) := by decide
/-- C17: G is not tested. -/
theorem test_jne_ignores_greater : (after (((ready 0 [0x56, 1]).setReg 1 0x40).setFlags false false true)).map State.pc =
    some 0x40 := by decide
/-- C16. -/
theorem test_jne_not_taken : (after (((ready 0 [0x56, 1]).setReg 1 0x40).setFlags true false false)).map State.pc = some 2 := by
  decide
/-- D3: the decremented SP is stored. -/
theorem test_push_sp : (after (ready 0 [0x45, 7])).map (fun t => (t.sp, t.memRead 0xF3)) = some (0xF3, 0xF3) := by decide
/-- D2: SP wraps, with no fault. -/
theorem test_push_wraps : (after (((ready 0 [0x45, 0]).setReg 0 0x42).setSp 0)).map (fun t => (t.sp, t.memRead 0xFF, t.run)) =
    some (0xFF, 0x42, .running) := by decide
/-- D7. -/
theorem test_pop_wraps : (after (((ready 0 [0x46, 1]).memWrite 0xFF 0x42).setSp 0xFF)).map (fun t => (t.reg 1, t.sp)) =
    some (0x42, 0x00) := by decide
/-- D9: the loaded byte is incremented. -/
theorem test_pop_sp : (after (((ready 0 [0x46, 7]).memWrite 0xF3 0x20).setSp 0xF3)).map State.sp = some 0x21 := by decide

/-! ### Fetch, hangs and faults -/

/-- E1, and its diagnostic. -/
theorem test_reset_hangs : after State.reset = some State.reset ∧ State.reset.diagnostic = some ⟨0, 0x00⟩ := by decide
/-- E3: the opcode check comes before the fit check. -/
theorem test_unknown_at_255_hangs : after (ready 255 [0x02]) = some (ready 255 [0x02]) := by decide
/-- E4. -/
theorem test_fetch_at_256 : (after (ready 256 [])).map State.run = some (.faulted (.fetchOverrun 256)) := by decide
/-- E5: the fit check comes before the register check. -/
theorem test_overrun_before_register : (after (ready 254 [0xA7, 8])).map State.run = some (.faulted (.fetchOverrun 254)) := by
  decide
/-- A8: `ra` is checked first. -/
theorem test_left_register_first : (after (ready 0 [0xA0, 9, 0x0A])).map State.run = some (.faulted (.badRegister 9)) := by
  decide
/-- E7. -/
theorem test_halted_stays : after (State.reset.halt) = some State.reset.halt := by decide

/-! ### The host's side -/

/-- S1's first two lines, with a comment and a blank line (R101). -/
theorem test_loader_lines : parseProgram ['#', 'x', '\n', '\n', '1', '0', '0', '0', '0', '0', '1', '0', ' ', '#', 'L', '\n', '0', '\n'] =
    .ok [0x82, 0x00] := by rfl
/-- S5. -/
theorem test_loader_malformed : parseProgram ['n', 'o', '\n'] = .error (.malformedToken ['n', 'o']) := by rfl
/-- R102 and 90_conflicts.md C2: 256 is not truncated. -/
theorem test_loader_above_255 : parseProgram ['1', '0', '0', '0', '0', '0', '0', '0', '0'] = .error (.valueAbove255 256) := by rfl
/-- D11: a comment mark after white space is a malformed token. -/
theorem test_loader_indented_comment : parseProgram [' ', '#'] = .error (.malformedToken ['#']) := by rfl
/-- S5: after a refused load `run` is still out of order. -/
theorem test_refused_load : Session.fresh.loadText ['n', 'o'] = .error (.inl (.malformedToken ['n', 'o'])) ∧
    Session.fresh.move .run = .error .outOfOrder := ⟨rfl, rfl⟩
/-- R85: the codes and infos of A6 and of E4. -/
theorem test_fault_codes : ((after (ready 0 [0xA0, 0, 9])).bind State.faultRecord = some (2, 9)) ∧
    ((after (ready 256 [])).bind State.faultRecord = some (1, 256)) := by decide
/-- R59. -/
theorem test_disassemble : disassemble [(3, 0x47), (4, 0x09)] 3 = .instr (.prn 9) ∧ disassemble [(255, 0x47)] 255 = .truncated .prn ∧
    disassemble [] 7 = .unknown 0 := by decide
/-- A truncated instruction takes one place in a listing (log entry 15). -/
theorem test_truncated_listing : (disassemble [(255, 0x47)] 255).length = 1 := by decide
theorem test_render : renderInstr (.ldi 0 8) = "LDI r0,8" ∧ renderInstr (.add 0 9) = "ADD r0,9?" := by decide

/-! ### Witnesses -/

open Sys2Proof.Claims

/-- The widest instruction at the last address where it fits, and the shortest at 255. -/
theorem witness_StepRunsDecodedInstruction :
    ((ready 253 [0x82, 0, 7]).run = .running ∧ (ready 253 [0x82, 0, 7]).AtPc (encode (.ldi 0 7))) ∧
    ((ready 255 [0x01]).run = .running ∧ (ready 255 [0x01]).AtPc (encode .hlt)) := by decide
/-- One state for each clause, where the clauses meet. -/
theorem witness_StepFollowsTheCheckOrder :
    ((ready 256 []).run = .running ∧ 255 < (ready 256 []).pc.toNat) ∧
    ((ready 255 [0x02]).pc.toNat ≤ 255 ∧ opcodeOf (ready 255 [0x02]).opcodeByte = none) ∧
    (opcodeOf (ready 254 [0x82, 0]).opcodeByte = some .ldi ∧ 255 < (ready 254 [0x82, 0]).pc.toNat + Opcode.ldi.length - 1) ∧
    (opcodeOf (ready 253 [0x82, 0]).opcodeByte = some .ldi ∧ (ready 253 [0x82, 0]).pc.toNat + Opcode.ldi.length - 1 ≤ 255) := by
  decide
theorem witness_UnknownOpcodeHangsForever :
    (ready 255 [0x02]).run = .running ∧ (ready 255 [0x02]).pc.toNat ≤ 255 ∧ opcodeOf (ready 255 [0x02]).opcodeByte = none := by
  decide
theorem witness_FetchOverrunExactlyPastTheEnd :
    (ready 255 [0x45]).run = .running ∧ after (ready 255 [0x45]) = some ((ready 255 [0x45]).raise (.fetchOverrun 255)) ∧
    after (ready 256 []) = some ((ready 256 []).raise (.fetchOverrun 256)) := by decide
theorem witness_StoppedCoreStaysAsItIs : State.reset.halt.Stopped ∧ (State.reset.raise (.badRegister 8)).Stopped := by decide
/-- A raise, `pc` at 256, an unknown opcode, and an instruction that ends at 255. -/
theorem witness_PcAdvancesByTheTable :
    after (ready 0 [0x54, 8]) = some ((ready 0 [0x54, 8]).raise (.badRegister 8)) ∧
    after (ready 256 []) = some ((ready 256 []).raise (.fetchOverrun 256)) ∧
    after (ready 255 [0x02]) = some (ready 255 [0x02]) ∧
    after (ready 254 [0x47, 1]) = some (((ready 254 [0x47, 1]).output 0).advance 2) ∧
    (ready 254 [0x47, 1]).AtPc (encode (.prn 1)) := by decide
theorem witness_StepKeepsInvariant :
    State.reset.Inv ∧ ((ready 254 [0x45, 0]).M.wf ∧ (ready 254 [0x45, 0]).pc.toNat ≤ 256 ∧ (ready 254 [0x45, 0]).FlagsExclusive) ∧
    (after (ready 254 [0x45, 0])).isSome = true := by
  exact ⟨⟨by decide, by decide, by decide, trivial⟩, by decide, by decide⟩
theorem witness_FaultsArePrecise :
    (ready 0 [0xA0, 0, 9]).run = .running ∧
    after (ready 0 [0xA0, 0, 9]) = some ((ready 0 [0xA0, 0, 9]).raise (.badRegister 9)) := by decide
theorem witness_BadRegisterExactlyOnBadOperands :
    (ready 0 [0xA0, 0, 8]).run = .running ∧ (ready 0 [0xA0, 0, 8]).AtPc (encode (.add 0 8)) ∧
    (after (ready 0 [0xA0, 0, 8])).map State.run = some (.faulted (.badRegister 8)) := by decide
theorem witness_HaltedOnlyByHlt :
    (ready 255 [0x01]).run = .running ∧ (after (ready 255 [0x01])).map State.run = some .halted := by decide
theorem witness_OnlyCmpWritesFlags :
    exec (.add 0 0) State.reset = .next (State.reset.advance 3) ∧ (Instr.add 0 0).opcode ≠ .cmp := ⟨rfl, by decide⟩
theorem witness_OnlyPushWritesMemory :
    exec (.ldi 0 0) State.reset = .next (State.reset.advance 3) ∧ (Instr.ldi 0 0).opcode ≠ .push ∧
    (0xF4 : Addr) ≠ State.reset.decSp.sp := ⟨rfl, by decide, by decide⟩
theorem witness_OnlyTabledRegistersAreWritten :
    exec (.ldi 6 1) State.reset = .next ((State.reset.setReg 6 1).advance 3) ∧ (7 : RegIdx) ∉ writtenRegs (.ldi 6 1) :=
  ⟨rfl, by decide⟩
theorem witness_OnlyPrnAppendsToOutput : (after (ready 254 [0x47, 7])).map State.out = some [0xF4] := by decide
theorem witness_LessGreaterAndOutputAreNeverRead :
    AgreeOnWhatIsRead State.reset ((State.reset.setFlags false true false).output 3) ∧
    Host.Core.run core 1 State.reset = .next State.reset ∧
    Host.Core.run core 1 ((State.reset.setFlags false true false).output 3) =
      .next ((State.reset.setFlags false true false).output 3) := ⟨⟨rfl, rfl, rfl, rfl, rfl⟩, rfl, rfl⟩
/-- For `ChecksRegister`: the first byte that names no register. -/
theorem witness_ChecksRegister : 8 ≤ (8 : Byte).toNat := by decide
/-- For `ChecksRegisters`, second clause: the last register, and the first byte that names none. -/
theorem witness_ChecksRegisters : (7 : Byte).toNat < 8 ∧ 8 ≤ (8 : Byte).toNat := by decide
/-- For AddRule, MulRule, CmpRule and LdiRule: each opcode at the last address where it fits and at the next. -/
theorem witness_FetchedUpTo_253 : ∀ op ∈ [0xA0, 0xA2, 0xA7, 0x82],
    ((ready 253 [op]).run = .running ∧ (ready 253 [op]).pc.toNat ≤ 253 ∧ (ready 253 [op]).opcodeByte = op) ∧
    (253 < (ready 254 [op]).pc.toNat ∧ (ready 254 [op]).pc.toNat ≤ 255 ∧ (ready 254 [op]).opcodeByte = op) := by decide
/-- For PrnRule, JmpRule, JeqRule, JneRule, PushRule and PopRule. -/
theorem witness_FetchedUpTo_254 : ∀ op ∈ [0x47, 0x54, 0x55, 0x56, 0x45, 0x46],
    ((ready 254 [op]).run = .running ∧ (ready 254 [op]).pc.toNat ≤ 254 ∧ (ready 254 [op]).opcodeByte = op) ∧
    (254 < (ready 255 [op]).pc.toNat ∧ (ready 255 [op]).pc.toNat ≤ 255 ∧ (ready 255 [op]).opcodeByte = op) := by decide
/-- HLT at the last address. -/
theorem witness_HltRule :
    (ready 255 [0x01]).run = .running ∧ (ready 255 [0x01]).pc.toNat ≤ 255 ∧ (ready 255 [0x01]).opcodeByte = 0x01 := by decide
/-- For the conditional clauses of JeqRule and JneRule: both values of E. -/
theorem witness_JeqRule_JneRule : (State.reset.setFlags true false false).E = true ∧ State.reset.E = false := by decide
/-- For the clauses of PushRule and PopRule, and for PushThenPopRestores: memory in canonical form, r7 and another. -/
theorem witness_PushRule_PopRule : (ready 0 [0x45, 7, 0x46, 7]).M.wf ∧ (6 : RegIdx) ≠ 7 ∧
    (0xF4 : Addr) ≠ (ready 0 [0x45, 7, 0x46, 7]).decSp.sp := by decide
theorem witness_FetchSeesThePushedByte :
    (State.reset.setReg 0 0x01).M.wf ∧ (State.reset.setReg 0 0x01).run = .running ∧
    (State.reset.setReg 0 0x01).decSp.reg 0 = 0x01 ∧
    exec (.push (regByte 0)) (State.reset.setReg 0 0x01) = .next (((State.reset.setReg 0 0x01).decSp.storeTop 0).advance 2) :=
  ⟨by decide, rfl, rfl, rfl⟩
/-- A PUSH at 0 with SP = 2: the write lands on its operand byte at 1. -/
theorem witness_PushUsesTheFetchedOperand :
    ((ready 0 [0x45, 3]).setSp 2).run = .running ∧ ((ready 0 [0x45, 3]).setSp 2).M.wf ∧
    ((ready 0 [0x45, 3]).setSp 2).AtPc [0x45, regByte 3] ∧
    ((ready 0 [0x45, 3]).setSp 2).decSp.sp.toNat = ((ready 0 [0x45, 3]).setSp 2).pc.toNat + 1 := by decide
theorem witness_AluAgreesWithSignedReading :
    exec (.add (regByte 0) (regByte 1)) State.reset = .next (State.reset.advance 3) ∧
    exec (.mul (regByte 0) (regByte 1)) State.reset = .next (State.reset.advance 3) := ⟨rfl, rfl⟩
/-- An image that fills the memory. -/
def fullImage : List Byte := List.replicate 256 0x01

theorem fullImage_length : fullImage.length ≤ 256 := le_of_eq List.length_replicate

/-- An image of one byte more than the memory holds. -/
def longImage : List Byte := List.replicate 257 0x01

theorem longImage_length : 256 < longImage.length := by rw [longImage, List.length_replicate]; decide

/-- A full image, with no cell above it, and the empty image, with every cell above it. -/
theorem witness_LoadPlacesTheImage :
    State.reset.M.wf ∧ fullImage.length ≤ 256 ∧ ([] : List Byte).length ≤ (0 : Addr).toNat :=
  ⟨by decide, fullImage_length, by decide⟩
/-- One session for each clause, and images on both sides of the limit. -/
theorem witness_HostMovesFollowTheBootOrder :
    Session.executing ⟨.launched, State.reset⟩ = true ∧ Session.executing ⟨.launched, State.reset.halt⟩ = false ∧
    Session.fresh.phase = .ready ∧ fullImage.length ≤ 256 ∧ 256 < longImage.length ∧
    (Session.mk .loaded State.reset).phase = .loaded ∧ (Session.mk .launched State.reset.halt).phase = .launched :=
  ⟨rfl, rfl, rfl, fullImage_length, longImage_length, rfl, rfl⟩
theorem witness_SessionStepsOnlyAfterRun :
    (Session.mk .loaded State.reset).phase ≠ .launched ∧ (Session.mk .launched State.reset).phase = .launched := by decide
theorem witness_LoaderReadsByteLines : fullImage.length ≤ 256 ∧ 256 < longImage.length :=
  ⟨fullImage_length, longImage_length⟩
/-- A comment mark behind a blank; 256 and 255, with a comment behind the one; and 255 bytes before. -/
theorem witness_LoaderReadsOrRefusesATokenLine :
    (IsTokenLine [' '] ['#'] [] ∧ ¬ IsBinary ['#']) ∧
    (IsTokenLine [] ['1', '0', '0', '0', '0', '0', '0', '0', '0'] [' ', '#'] ∧
      IsBinary ['1', '0', '0', '0', '0', '0', '0', '0', '0'] ∧
      binaryNumber ['1', '0', '0', '0', '0', '0', '0', '0', '0'] = 256) ∧
    (IsTokenLine [] ['0', '1', '1', '1', '1', '1', '1', '1', '1'] ['\t'] ∧
      IsBinary ['0', '1', '1', '1', '1', '1', '1', '1', '1'] ∧
      binaryNumber ['0', '1', '1', '1', '1', '1', '1', '1', '1'] = 255) ∧
    (List.replicate 255 (0x01 : Byte)).length ≤ 255 := by
  refine ⟨⟨?_, ?_⟩, ⟨?_, ?_, ?_⟩, ⟨?_, ?_, ?_⟩, le_of_eq List.length_replicate⟩ <;>
    simp [IsTokenLine, IsBinary, binaryNumber, Nat.ofDigits]
/-- A text that is refused, one that parses, and a load that is accepted. -/
theorem witness_LoadTextTakesTheWholeOrNothing :
    Session.fresh.phase = .ready ∧ parseProgram ['2'] = .error (.malformedToken ['2']) ∧ parseProgram ['1'] = .ok [0x01] ∧
    Session.fresh.loadText ['1'] = .ok ⟨.loaded, State.reset.load [0x01]⟩ := ⟨rfl, rfl, rfl, rfl⟩
theorem witness_LoaderSkipsCommentsAndBlanks : '\n' ∉ [' ', '\t'] ∧ [' ', '\t'].all Char.isWhitespace = true := by decide
theorem witness_DisassemblyAgreesWithFetch : (ready 255 [0x47]).pc.toNat ≤ 255 := by decide
/-- The last cell that is present, and the first that is absent. -/
theorem witness_TraceShowsTheRecord :
    1 < (ready 254 []).trace.cells.length ∧ (ready 254 []).pc.toNat + 1 ≤ 255 ∧ 2 < (ready 254 []).trace.cells.length ∧
    255 < (ready 254 []).pc.toNat + 2 := by decide
theorem witness_ResetLeavesTheDecidedZeros : (6 : RegIdx) ≠ 7 := by decide

end Sys2Proof.Tests
end

section
/-! The reset state, and the moves of the host: one rule per move and phase of a `Session`. -/

namespace Sys2Proof.Machine

@[simp] theorem State.reset_pc : State.reset.pc = Config.pcReset := rfl
@[simp] theorem State.reset_sp : State.reset.sp = Config.spReset := rfl
@[simp] theorem State.reset_memRead (a : Addr) : State.reset.memRead a = Config.memReset := rfl
@[simp] theorem State.reset_run : State.reset.run = .running := rfl
@[simp] theorem State.reset_out : State.reset.out = [] := rfl

variable {h : Session}

/-- Before `run` the core takes no step (10_state.md R31). -/
theorem Session.executing_of_phase_ne_launched (hp : h.phase ≠ .launched) : h.executing = false := by
  simp [Session.executing, hp]

theorem Session.executing_of_ready (hp : h.phase = .ready) : h.executing = false :=
  Session.executing_of_phase_ne_launched (by simp [hp])

theorem Session.executing_of_loaded (hp : h.phase = .loaded) : h.executing = false :=
  Session.executing_of_phase_ne_launched (by simp [hp])

theorem Session.move_of_executing (hx : h.executing = true) (m : HostMove) : h.move m = .error .coreExecuting := by
  simp [Session.move, hx]

theorem Session.move_reset (hx : h.executing = false) : h.move .reset = .ok Session.fresh := by
  simp [Session.move, hx]

/-- After reset, an image that fits is loaded (R30, R99). -/
theorem Session.move_load_of_fits (hp : h.phase = .ready) {image : List Byte} (hfits : image.length ≤ Config.memSize) :
    h.move (.load image) = .ok ⟨.loaded, h.core.load image⟩ := by
  simp [Session.move, Session.executing_of_ready hp, hp, hfits]

/-- After reset, an image that does not fit is refused with its length (R30, decision D11). -/
theorem Session.move_load_of_too_long (hp : h.phase = .ready) {image : List Byte}
    (hlong : Config.memSize < image.length) : h.move (.load image) = .error (.imageTooLong image.length) := by
  simp [Session.move, Session.executing_of_ready hp, hp, hlong]

/-- `load` is in order after reset only (R99). -/
theorem Session.move_load_of_phase_ne_ready (hx : h.executing = false) (hp : h.phase ≠ .ready) (image : List Byte) :
    h.move (.load image) = .error .outOfOrder := by
  obtain ⟨phase, core⟩ := h
  cases phase with
  | ready => exact absurd rfl hp
  | loaded => simp [Session.move, hx]
  | launched => simp [Session.move, hx]

theorem Session.move_run_of_ready (hp : h.phase = .ready) : h.move .run = .error .outOfOrder := by
  simp [Session.move, Session.executing_of_ready hp, hp]

/-- `run` is in order once an image was loaded, whatever came after (R31, R99). -/
theorem Session.move_run_of_phase_ne_ready (hx : h.executing = false) (hp : h.phase ≠ .ready) :
    h.move .run = .ok ⟨.launched, h.core⟩ := by
  obtain ⟨phase, core⟩ := h
  cases phase with
  | ready => exact absurd rfl hp
  | loaded => simp [Session.move, hx]
  | launched => simp [Session.move, hx]

/-- A `run` of a core that has stopped changes nothing (R31, decision D9). -/
theorem Session.move_run_of_stopped (hp : h.phase = .launched) (hx : h.executing = false) : h.move .run = .ok h := by
  have same : Session.mk .launched h.core = h := by rw [← hp]
  rw [Session.move_run_of_phase_ne_ready hx (by simp [hp]), same]

theorem Session.inspect_of_executing (hx : h.executing = true) : h.inspect = .error .coreExecuting := by
  simp [Session.inspect, hx]

theorem Session.inspect_of_not_executing (hx : h.executing = false) : h.inspect = .ok h.core := by
  simp [Session.inspect, State.inspect, hx]

end Sys2Proof.Machine

open Sys2Proof Sys2Proof.Machine

/-- Settles O14, field by field of the reset state; the empty memory reads as its reset contents everywhere. -/
theorem resetLeavesTheSourcesValues : Obligations.ResetLeavesTheSourcesValues :=
  ⟨congrArg BitVec.toNat State.reset_pc, congrArg BitVec.toNat State.reset_sp, State.reset_memRead,
    State.reset_run, State.reset_out⟩

/-- Settles O41, by whether the core executes and then by the phase of the session. -/
theorem hostMovesFollowTheBootOrder : Obligations.HostMovesFollowTheBootOrder := by
  intro h
  refine ⟨fun hx => ?executing, fun hx => ?idle, fun hp => ?ready, fun hp => ?loaded, fun hp hx => ?stopped⟩
  case executing => exact ⟨Session.move_of_executing hx, Session.inspect_of_executing hx⟩
  case idle => exact ⟨Session.move_reset hx, Session.inspect_of_not_executing hx⟩
  case ready =>
    exact ⟨fun _ hfits => Session.move_load_of_fits hp hfits, fun _ hlong => Session.move_load_of_too_long hp hlong,
      Session.move_run_of_ready hp⟩
  case loaded =>
    have hx := Session.executing_of_loaded hp
    have hready : h.phase ≠ .ready := by simp [hp]
    exact ⟨Session.move_run_of_phase_ne_ready hx hready, Session.move_load_of_phase_ne_ready hx hready⟩
  case stopped =>
    have hready : h.phase ≠ .ready := by simp [hp]
    exact ⟨Session.move_run_of_stopped hp hx, Session.move_load_of_phase_ne_ready hx hready⟩

end

section
/-! The step of a running core by what stands at `pc` (40_execution_cycle.md R60 to R68), and the program counter and the
run state after it. -/

namespace Sys2Proof

/-- An instruction is read back from its own bytes, whatever stands after them (30_encoding.md R49, R50). -/
theorem decode_encode_append (i : Instr) (rest : List Byte) : decode (encode i ++ rest) = .ok (i, rest) := by
  cases i <;> rfl

theorem encode_length (i : Instr) : (encode i).length = i.length := by
  cases i <;> rfl

theorem decode_unknown {op : Byte} (h : opcodeOf op = none) (rest : List Byte) :
    decode (op :: rest) = .error (.unknownOpcode op) := by
  simp [decode, h]

end Sys2Proof

namespace Sys2Proof.Machine

/-! ### The fetch -/

variable {s t : State} {i : Instr}

theorem State.AtPc.byteAt? {bytes : List Byte} (h : s.AtPc bytes) {k : Nat} (hk : k < bytes.length) :
    s.byteAt? (s.pc.toNat + k) = some bytes[k] := by
  obtain ⟨fits, reads⟩ := h
  rw [State.byteAt?, if_pos (by omega), reads k hk]

/-- The fetch has the bytes that stand at `pc`, as far as an instruction can reach (40_execution_cycle.md R61). -/
theorem State.AtPc.fetchBytes_begins_with {bytes : List Byte} (h : s.AtPc bytes) (short : bytes.length ≤ 3) :
    bytes <+: s.fetchBytes := by
  match bytes with
  | [] => exact List.nil_prefix
  | [a] =>
    have ha : s.byteAt? s.pc.toNat = some a := h.byteAt? (k := 0) (by simp)
    simp [State.fetchBytes, ha]
  | [a, b] =>
    have ha : s.byteAt? s.pc.toNat = some a := h.byteAt? (k := 0) (by simp)
    have hb : s.byteAt? (s.pc.toNat + 1) = some b := h.byteAt? (k := 1) (by simp)
    simp [State.fetchBytes, ha, hb]
  | [a, b, c] =>
    have ha : s.byteAt? s.pc.toNat = some a := h.byteAt? (k := 0) (by simp)
    have hb : s.byteAt? (s.pc.toNat + 1) = some b := h.byteAt? (k := 1) (by simp)
    have hc : s.byteAt? (s.pc.toNat + 2) = some c := h.byteAt? (k := 2) (by simp)
    simp [State.fetchBytes, ha, hb, hc]

/-- The instruction whose bytes stand at `pc` is the one fetched. -/
theorem State.AtPc.fetch_eq (h : s.AtPc (encode i)) : s.fetch = .instr i := by
  have short : (encode i).length ≤ 3 := (encode_length i).trans_le i.opcode.length_bounds.2
  obtain ⟨rest, hrest⟩ := h.fetchBytes_begins_with short
  simp [State.fetch, ← hrest, decode_encode_append]

theorem State.fetch_of_opcode_unknown (hpc : s.pc.toNat ≤ 255) (hop : opcodeOf s.opcodeByte = none) :
    s.fetch = .unknown s.opcodeByte := by
  obtain ⟨rest, hrest⟩ := State.fetchBytes_head hpc
  have head : s.fetchBytes = s.opcodeByte :: rest := hrest
  simp [State.fetch, head, decode_unknown hop]

theorem State.fetch_of_pc_past (hpc : 256 ≤ s.pc.toNat) : s.fetch = .overrun := by
  simp [State.fetch, State.fetchBytes_past hpc, decode]

/-! ### The step -/

theorem step_of_atPc (hrun : s.run = .running) (h : s.AtPc (encode i)) : step s = exec i s := by
  rw [step_running hrun, h.fetch_eq]

theorem step_of_opcode_unknown (hrun : s.run = .running) (hpc : s.pc.toNat ≤ 255)
    (hop : opcodeOf s.opcodeByte = none) : step s = .next s := by
  rw [step_running hrun, State.fetch_of_opcode_unknown hpc hop]

theorem step_of_pc_past (hrun : s.run = .running) (hpc : 256 ≤ s.pc.toNat) :
    step s = .next (s.raise (.fetchOverrun s.pc)) := by
  rw [step_running hrun, State.fetch_of_pc_past hpc]

/-- Everything the step of a running core can do: hang, execute the fetched instruction, or raise with nothing written. -/
theorem step_next_cases (hrun : s.run = .running) (h : step s = .next t) :
    ((∃ op, s.fetch = .unknown op) ∧ t = s) ∨ (∃ i, s.fetch = .instr i ∧ Effect s i t) ∨
      (s.fetch = .overrun ∧ t = s.raise (.fetchOverrun s.pc)) ∨
      ∃ i, s.fetch = .instr i ∧ ∃ v ∈ i.regOperands, 8 ≤ v.toNat ∧ t = s.raise (.badRegister v) := by
  rw [step_running hrun] at h
  cases hf : s.fetch with
  | unknown op =>
    rw [hf] at h
    exact .inl ⟨⟨op, rfl⟩, (Host.Outcome.next.inj h).symm⟩
  | overrun =>
    rw [hf] at h
    exact .inr (.inr (.inl ⟨rfl, (Host.Outcome.next.inj h).symm⟩))
  | instr i =>
    rw [hf] at h
    rcases exec_next_cases h with effect | bad
    · exact .inr (.inl ⟨i, rfl, effect⟩)
    · exact .inr (.inr (.inr ⟨i, rfl, bad⟩))

/-- A state whose step answers that same state is answered by any number of steps. -/
theorem run_of_step_self {M : Host.Core} {u : M.State} (h : M.step u = .next u) (k : Nat) : M.run k u = .next u := by
  induction k with
  | zero => rfl
  | succ k ih => rw [Host.Core.run, h]; exact ih

/-! ### The program counter and the run state after an instruction -/

/-- Inside the address space an advance does not wrap, and it ends at 256 at most (R67). -/
theorem State.advance_pc_of_fits {n : Nat} (fits : s.pc.toNat + n ≤ 256) :
    (s.advance n).pc.toNat ≤ 256 ∧ (s.advance n).pc.toNat = s.pc.toNat + n := by
  have exact_sum : (s.advance n).pc.toNat = s.pc.toNat + n := by
    rw [State.advance_pc, BitVec.toNat_add, BitVec.toNat_ofNat]
    omega
  exact ⟨exact_sum.trans_le fits, exact_sum⟩

/-- A jump target is an 8-bit value, so an address (43_control.md R76). -/
theorem State.jump_pc_toNat (s : State) (a : Addr) :
    (s.jump a).pc.toNat ≤ 256 ∧ (s.jump a).pc.toNat = a.toNat := by
  have := a.isLt
  rw [State.jump_pc, BitVec.toNat_setWidth]
  omega

/-- An instruction that raises nothing leaves the core running, but HLT (R67, R77). -/
theorem Effect.run_eq (e : Effect s i t) : t.run = if i = .hlt then .halted else s.run := by
  cases i with
  | hlt => obtain rfl := e; simp
  | ldi => obtain ⟨ra, -, rfl⟩ := e; simp
  | prn => obtain ⟨ra, -, rfl⟩ := e; simp
  | mul => obtain ⟨ra, rb, -, -, rfl⟩ := e; simp
  | add => obtain ⟨ra, rb, -, -, rfl⟩ := e; simp
  | cmp => obtain ⟨ra, rb, -, -, rfl⟩ := e; simp
  | jmp => obtain ⟨ra, -, rfl⟩ := e; simp
  | jeq => obtain ⟨ra, -, rfl⟩ := e; cases s.E <;> simp
  | jne => obtain ⟨ra, -, rfl⟩ := e; cases s.E <;> simp
  | push => obtain ⟨ra, -, rfl⟩ := e; simp
  | pop => obtain ⟨ra, -, rfl⟩ := e; simp

theorem Effect.not_faulted (hrun : s.run = .running) (e : Effect s i t) (c : Cause) : t.run ≠ .faulted c := by
  rw [e.run_eq, hrun]
  split <;> simp

/-- The table of 40_execution_cycle.md R67: `pc` after an instruction that raised nothing, as a number. -/
def PcTable (s t : State) : Instr → Prop
  | .hlt => t.pc.toNat = s.pc.toNat + 1 ∧ t.run = .halted
  | .ldi _ _ | .mul _ _ | .add _ _ | .cmp _ _ => t.pc.toNat = s.pc.toNat + 3
  | .prn _ | .push _ | .pop _ => t.pc.toNat = s.pc.toNat + 2
  | .jmp a => ∃ ra, a = regByte ra ∧ t.pc.toNat = (s.reg ra).toNat
  | .jeq a => ∃ ra, a = regByte ra ∧ t.pc.toNat = if s.E then (s.reg ra).toNat else s.pc.toNat + 2
  | .jne a => ∃ ra, a = regByte ra ∧ t.pc.toNat = if s.E then s.pc.toNat + 2 else (s.reg ra).toNat

/-- An instruction inside memory leaves `pc` at 256 at most, as the table says. -/
theorem Effect.pcTable (fits : s.pc.toNat + i.length ≤ 256) (e : Effect s i t) :
    t.pc.toNat ≤ 256 ∧ PcTable s t i := by
  cases i with
  | hlt =>
    obtain rfl := e
    obtain ⟨le, sum⟩ := State.advance_pc_of_fits (s := s.halt) (n := 1) fits
    exact ⟨le, sum, rfl⟩
  | ldi => obtain ⟨ra, -, rfl⟩ := e; exact State.advance_pc_of_fits fits
  | prn => obtain ⟨ra, -, rfl⟩ := e; exact State.advance_pc_of_fits fits
  | mul => obtain ⟨ra, rb, -, -, rfl⟩ := e; exact State.advance_pc_of_fits fits
  | add => obtain ⟨ra, rb, -, -, rfl⟩ := e; exact State.advance_pc_of_fits fits
  | cmp => obtain ⟨ra, rb, -, -, rfl⟩ := e; exact State.advance_pc_of_fits fits
  | push => obtain ⟨ra, -, rfl⟩ := e; exact State.advance_pc_of_fits fits
  | pop => obtain ⟨ra, -, rfl⟩ := e; exact State.advance_pc_of_fits fits
  | jmp =>
    obtain ⟨ra, ha, rfl⟩ := e
    obtain ⟨le, target⟩ := s.jump_pc_toNat (s.reg ra)
    exact ⟨le, ra, ha, target⟩
  | jeq =>
    obtain ⟨ra, ha, rfl⟩ := e
    obtain ⟨le, target⟩ := s.jump_pc_toNat (s.reg ra)
    obtain ⟨le', sum⟩ := State.advance_pc_of_fits (n := 2) fits
    cases hE : s.E with
    | true => exact ⟨le, ra, ha, by simpa [hE] using target⟩
    | false => exact ⟨le', ra, ha, by simpa [hE] using sum⟩
  | jne =>
    obtain ⟨ra, ha, rfl⟩ := e
    obtain ⟨le, target⟩ := s.jump_pc_toNat (s.reg ra)
    obtain ⟨le', sum⟩ := State.advance_pc_of_fits (n := 2) fits
    cases hE : s.E with
    | true => exact ⟨le', ra, ha, by simpa [hE] using sum⟩
    | false => exact ⟨le, ra, ha, by simpa [hE] using target⟩

/-- A step that records a fault leaves `pc` at the instruction it fetched (R67, 60_exceptions.md R88). -/
theorem step_pc_of_faulted (hrun : s.run = .running) (h : step s = .next t) {c : Cause} (hc : t.run = .faulted c) :
    t.pc = s.pc := by
  rcases step_next_cases hrun h with ⟨-, rfl⟩ | ⟨i, -, effect⟩ | ⟨-, rfl⟩ | ⟨i, -, v, -, -, rfl⟩
  · rfl
  · exact absurd hc (effect.not_faulted hrun c)
  · rfl
  · rfl

/-- A step of the instruction at `pc` that records no fault moves `pc` by the table. -/
theorem step_pcTable (hrun : s.run = .running) (h : step s = .next t) (hat : s.AtPc (encode i))
    (ok : ∀ c, t.run ≠ .faulted c) : t.pc.toNat ≤ 256 ∧ PcTable s t i := by
  rw [step_of_atPc hrun hat] at h
  rcases exec_next_cases h with effect | ⟨v, -, -, rfl⟩
  · exact effect.pcTable (by simpa [encode_length] using hat.1)
  · exact absurd rfl (ok (.badRegister v))

end Sys2Proof.Machine

open Sys2Proof Sys2Proof.Machine

/-- Settles O7: the fetch finds the unknown byte, so the step is the self-loop, and a self-loop is one for ever. -/
theorem unknownOpcodeHangsForever : Obligations.UnknownOpcodeHangsForever := by
  intro s hrun hpc hop
  have loop := step_of_opcode_unknown hrun hpc hop
  have shown : s.diagnostic = some ⟨s.pc, s.opcodeByte⟩ := by
    simp [State.diagnostic, hrun, State.fetch_of_opcode_unknown hpc hop]
  exact ⟨loop, shown, run_of_step_self (M := core) loop⟩

/-- Settles O11, clause by clause: a raise, the fetch from 256, an unknown opcode, and the table. -/
theorem pcAdvancesByTheTable : Obligations.PcAdvancesByTheTable := by
  intro s t hrun hstep
  refine ⟨fun ⟨c, hc⟩ => step_pc_of_faulted hrun hstep hc, fun hpc => ?past, fun hpc hop => ?unknown,
    fun i hat ok => ?table⟩
  case past =>
    rw [step_of_pc_past hrun hpc.ge] at hstep
    cases hstep
    rfl
  case unknown =>
    rw [step_of_opcode_unknown hrun hpc hop] at hstep
    cases hstep
    rfl
  case table =>
    have byTable := step_pcTable hrun hstep hat ok
    cases i <;> exact byTable

end

section
/-! The instructions that write one register from two (41_alu.md R71, R72), in the four parts of a per-instruction
statement: what the fetch of a known opcode finds, by where `pc` stands; the check of two register operands; and what a
register write followed by an advance leaves. -/

namespace Sys2Proof

/-- An instruction's bytes are its opcode byte and as many of the two operand bytes as its length has (30_encoding.md
R49, R50). -/
theorem encode_toInstr (o : Opcode) (a b : Byte) : encode (o.toInstr a b) = [o.byte, a, b].take o.length := by
  cases o <;> rfl

/-- A known opcode with too few bytes after it is truncated, whatever those bytes are. -/
theorem decode_truncated {o : Opcode} {rest : List Byte} (short : rest.length + 1 < o.length) :
    decode (o.byte :: rest) = .error (.truncated o) := by
  rw [Opcode.length] at short
  simp only [decode, opcodeOf_byte]
  split
  case h_5 => rfl
  -- in the decoder's four reading branches the bytes suffice for the format
  all_goals
    rename_i hf
    rw [hf] at short
    exact absurd short (by simp [Format.length])

end Sys2Proof

namespace Sys2Proof.Machine

open Sys2Proof.Claims

variable {s : State} {o : Opcode}

/-! ### A known opcode at `pc` -/

/-- Where an instruction's length fits, its bytes are those that stand at `pc`. -/
theorem State.atPc_toInstr (hop : s.opcodeByte = o.byte) (fits : s.pc.toNat + o.length ≤ 256) :
    s.AtPc (encode (o.toInstr (operandA s) (operandB s))) := by
  refine ⟨by simpa [encode_length, Instr.length] using fits, fun k hk => ?_⟩
  simp only [encode_toInstr, List.getElem_take]
  have hk3 : k < 3 := by
    rw [encode_toInstr] at hk
    exact hk.trans_le (List.length_take_le' ..)
  match k, hk3 with
  | 0, _ => exact hop
  | 1, _ => rfl
  | 2, _ => rfl

/-- At the last two addresses the fetch has no byte after address 255 (40_execution_cycle.md R61). -/
theorem State.fetchBytes_near_end (low : 254 ≤ s.pc.toNat) (high : s.pc.toNat ≤ 255) :
    ∃ rest, s.fetchBytes = s.opcodeByte :: rest ∧ s.pc.toNat + (rest.length + 1) = 256 := by
  rcases Nat.lt_or_ge s.pc.toNat 255 with h | h
  · have at254 : s.pc.toNat = 254 := by omega
    exact ⟨_, State.fetchBytes_last_two at254, by simp [at254]⟩
  · have at255 : s.pc.toNat = 255 := by omega
    exact ⟨_, State.fetchBytes_last at255, by simp [at255]⟩

theorem State.fetch_of_opcode_long (hpc : s.pc.toNat ≤ 255) (hop : s.opcodeByte = o.byte)
    (long : 256 < s.pc.toNat + o.length) : s.fetch = .overrun := by
  have longest : o.length ≤ 3 := o.length_bounds.2
  obtain ⟨rest, bytes, count⟩ := State.fetchBytes_near_end (s := s) (by omega) hpc
  simp [State.fetch, bytes, hop, decode_truncated (show rest.length + 1 < o.length by omega)]

theorem step_of_opcode_long (hrun : s.run = .running) (hpc : s.pc.toNat ≤ 255) (hop : s.opcodeByte = o.byte)
    (long : 256 < s.pc.toNat + o.length) : step s = .next (s.raise (.fetchOverrun s.pc)) := by
  rw [step_running hrun, State.fetch_of_opcode_long hpc hop long]

/-- Every instruction is executed up to the last address where its length fits, and overruns above
(60_exceptions.md R86). -/
theorem fetchedUpTo_toInstr (o : Opcode) :
    FetchedUpTo (256 - o.length) o.byte fun s => o.toInstr (operandA s) (operandB s) := by
  intro s hrun hpc hop
  have longest : o.length ≤ 3 := o.length_bounds.2
  exact ⟨fun le => step_of_atPc hrun (State.atPc_toInstr hop (by omega)),
    fun gt => step_of_opcode_long hrun hpc hop (by omega)⟩

/-! ### The operand check and the effect -/

/-- An instruction whose meaning goes through `withRegs` checks `ra` before `rb` (40_execution_cycle.md R68). -/
theorem checksRegisters_of_exec_eq {form : Byte → Byte → Instr} {k : State → RegIdx → RegIdx → State}
    (meaning : ∀ s a b, exec (form a b) s = withRegs s a b (k s)) : ChecksRegisters form := by
  intro s a b
  refine ⟨fun ha => ?left, fun ha hb => ?right⟩
  case left => rw [meaning, withRegs_bad_left s b ha]; rfl
  case right =>
    obtain ⟨ra, rfl⟩ := eq_regByte ha
    rw [meaning, withRegs_bad_right s ra hb]
    rfl

/-- What a register write followed by an advance keeps: all but that register and `pc`. -/
theorem State.setReg_advance_frame (s : State) (r : RegIdx) (v : Byte) (n : Nat) :
    RegsKeptBut s ((s.setReg r v).advance n) [r] ∧ FlagsKept s ((s.setReg r v).advance n) ∧
      MemoryKept s ((s.setReg r v).advance n) ∧ RunAndOutKept s ((s.setReg r v).advance n) := by
  refine ⟨fun q hq => ?_, ⟨rfl, rfl, rfl⟩, fun _ => rfl, rfl, rfl⟩
  exact s.setReg_reg_ne v (List.ne_of_not_mem_cons hq)

@[simp] theorem aluAdd_toNat (u v : Byte) : (aluAdd u v).toNat = (u.toNat + v.toNat) % 256 := BitVec.toNat_ofNat _ _

@[simp] theorem aluMul_toNat (u v : Byte) : (aluMul u v).toNat = u.toNat * v.toNat % 256 := BitVec.toNat_ofNat _ _

theorem exec_add (s : State) (a b : Byte) : exec (.add a b) s =
    withRegs s a b fun ra rb => (s.setReg ra (aluAdd (s.reg ra) (s.reg rb))).advance 3 := rfl

theorem exec_mul (s : State) (a b : Byte) : exec (.mul a b) s =
    withRegs s a b fun ra rb => (s.setReg ra (aluMul (s.reg ra) (s.reg rb))).advance 3 := rfl

end Sys2Proof.Machine

open Sys2Proof Sys2Proof.Machine

/-- Settles O24: the sum is what the register write leaves, and the fetch is that of any opcode of length 3. -/
theorem addRule : Obligations.AddRule := by
  refine ⟨fun _ _ => rfl, fun s ra rb => ?effect, checksRegisters_of_exec_eq exec_add, fetchedUpTo_toInstr .add⟩
  case effect =>
    refine ⟨_, by rw [exec_add, withRegs_regByte], ?sum, rfl, s.setReg_advance_frame ra _ 3⟩
    case sum => simp

/-- Settles O25, as O24: the low byte of the product is what the register write leaves. -/
theorem mulRule : Obligations.MulRule := by
  refine ⟨fun _ _ => rfl, fun s ra rb => ?effect, checksRegisters_of_exec_eq exec_mul, fetchedUpTo_toInstr .mul⟩
  case effect =>
    refine ⟨_, by rw [exec_mul, withRegs_regByte], ?product, rfl, s.setReg_advance_frame ra _ 3⟩
    case product => simp

end

section
/-! The instructions with one register operand that go on to the next instruction (42_data_io.md R74, R75): the check of
the operand, what an emitted byte leaves unchanged, and the meanings of LDI and PRN. The fetch and the frame of a register
write are those of 41_alu.md. -/

namespace Sys2Proof.Machine

open Sys2Proof.Claims

/-- An instruction whose meaning goes through `withReg` checks its operand (30_encoding.md R51, 60_exceptions.md R87). -/
theorem checksRegister_of_exec_eq {form : Byte → Instr} {k : State → RegIdx → State}
    (meaning : ∀ s a, exec (form a) s = withReg s a (k s)) : ChecksRegister form := by
  intro s a ha
  rw [meaning, withReg_bad s ha]
  rfl

/-- What an emitted byte followed by an advance keeps: all but the output stream and `pc`. -/
theorem State.output_advance_frame (s : State) (v : Byte) (n : Nat) :
    RegsKeptBut s ((s.output v).advance n) [] ∧ FlagsKept s ((s.output v).advance n) ∧
      MemoryKept s ((s.output v).advance n) :=
  ⟨fun _ _ => rfl, ⟨rfl, rfl, rfl⟩, fun _ => rfl⟩

theorem exec_ldi (s : State) (a imm : Byte) :
    exec (.ldi a imm) s = withReg s a fun ra => (s.setReg ra imm).advance 3 := rfl

theorem exec_prn (s : State) (a : Byte) :
    exec (.prn a) s = withReg s a fun ra => (s.output (s.reg ra)).advance 2 := rfl

end Sys2Proof.Machine

open Sys2Proof Sys2Proof.Machine

/-- Settles O28: the immediate is what the register write leaves, in SP too when the register is r7. -/
theorem ldiRule : Obligations.LdiRule := by
  refine ⟨fun _ _ => rfl, fun s ra imm => ?effect,
    fun imm => checksRegister_of_exec_eq fun s a => exec_ldi s a imm, fetchedUpTo_toInstr .ldi⟩
  case effect =>
    refine ⟨_, by rw [exec_ldi, withReg_regByte], ?loaded, ?stackPointer, rfl, s.setReg_advance_frame ra imm 3⟩
    case loaded => exact s.setReg_reg_same ra imm
    case stackPointer =>
      rintro rfl
      exact s.setSp_sp imm

/-- Settles O29: the register's value is appended to the output stream, and nothing else but `pc` changes. -/
theorem prnRule : Obligations.PrnRule := by
  refine ⟨fun _ => rfl, fun s ra => ?effect, checksRegister_of_exec_eq exec_prn, fetchedUpTo_toInstr .prn⟩
  case effect =>
    have next : exec (.prn (regByte ra)) s = .next ((s.output (s.reg ra)).advance 2) := by
      rw [exec_prn, withReg_regByte]
    exact ⟨_, next, s.output_out (s.reg ra), rfl, rfl, s.output_advance_frame (s.reg ra) 2⟩

end

section
/-! The control family (43_control.md R76 to R80): what an instruction that writes only `pc` keeps, the conditional jump
that JEQ and JNE share, and the core that HLT stops. The fetch and the operand check are those of the families before. -/

namespace Sys2Proof.Machine

open Sys2Proof.Claims

/-! ### The jumps -/

/-- The state after a jump that is taken on a condition, else after the instruction's two bytes (R67). -/
def State.jumpIf (s : State) (taken : Bool) (target : Addr) : State :=
  if taken then s.jump target else s.advance 2

theorem State.jumpIf_pc_taken (s : State) {taken : Bool} (h : taken = true) (target : Addr) :
    (s.jumpIf taken target).pc.toNat = target.toNat := by
  rw [State.jumpIf, if_pos h]
  exact (s.jump_pc_toNat target).2

theorem State.jumpIf_pc_untaken (s : State) {taken : Bool} (h : taken = false) (target : Addr) :
    (s.jumpIf taken target).pc = s.pc + 2 := by
  rw [State.jumpIf, h]
  rfl

/-- What a write of `pc` alone keeps. -/
theorem State.withPc_frame (s : State) (p : PcWord) :
    RegsKeptBut s { s with pc := p } [] ∧ FlagsKept s { s with pc := p } ∧ MemoryKept s { s with pc := p } ∧
      RunAndOutKept s { s with pc := p } :=
  ⟨fun _ _ => rfl, ⟨rfl, rfl, rfl⟩, fun _ => rfl, rfl, rfl⟩

/-- Taken or not, a conditional jump writes `pc` alone. -/
theorem State.jumpIf_frame (s : State) (taken : Bool) (target : Addr) :
    RegsKeptBut s (s.jumpIf taken target) [] ∧ FlagsKept s (s.jumpIf taken target) ∧
      MemoryKept s (s.jumpIf taken target) ∧ RunAndOutKept s (s.jumpIf taken target) := by
  cases taken with
  | true => exact s.withPc_frame _
  | false => exact s.withPc_frame _

theorem exec_jmp (s : State) (a : Byte) : exec (.jmp a) s = withReg s a fun ra => s.jump (s.reg ra) := rfl

theorem exec_jeq (s : State) (a : Byte) : exec (.jeq a) s = withReg s a fun ra => s.jumpIf s.E (s.reg ra) := rfl

theorem exec_jne (s : State) (a : Byte) : exec (.jne a) s = withReg s a fun ra => s.jumpIf (!s.E) (s.reg ra) := by
  have opposite : ∀ ra, (if s.E then s.advance 2 else s.jump (s.reg ra)) = s.jumpIf (!s.E) (s.reg ra) := by
    intro ra
    cases h : s.E with
    | true => rfl
    | false => rfl
  exact congrArg (withReg s a) (funext opposite)

/-! ### The halt -/

theorem exec_hlt (s : State) : exec .hlt s = .next (s.halt.advance 1) := rfl

/-- What a halt followed by an advance keeps: all but the run state and `pc`. -/
theorem State.halt_advance_frame (s : State) (n : Nat) :
    RegsKeptBut s (s.halt.advance n) [] ∧ FlagsKept s (s.halt.advance n) ∧ MemoryKept s (s.halt.advance n) :=
  ⟨fun _ _ => rfl, ⟨rfl, rfl, rfl⟩, fun _ => rfl⟩

/-- A core that is Halted or Faulted takes no step (10_state.md R31, 40_execution_cycle.md R69). -/
theorem step_of_stopped {s : State} (h : s.Stopped) : step s = .next s := by
  rw [step]
  cases hrun : s.run with
  | running => exact absurd hrun h
  | halted => rfl
  | faulted c => rfl

end Sys2Proof.Machine

open Sys2Proof Sys2Proof.Machine

/-- Settles O30: the halted core is stopped, so its step is a self-loop; and one byte fits at every address. -/
theorem hltRule : Obligations.HltRule := by
  refine ⟨rfl, fun s => ?effect, fun s hrun hpc hop => ?fetched⟩
  case effect =>
    have stopped : (s.halt.advance 1).Stopped := by simp
    have stays := run_of_step_self (M := core) (step_of_stopped stopped)
    obtain ⟨regs, flags, memory⟩ := s.halt_advance_frame 1
    exact ⟨_, exec_hlt s, rfl, rfl, rfl, regs, flags, memory, stays⟩
  case fetched => exact (fetchedUpTo_toInstr .hlt s hrun hpc hop).1 hpc

/-- Settles O31: the target is the register's value, and `pc` alone is written. -/
theorem jmpRule : Obligations.JmpRule := by
  refine ⟨fun _ => rfl, fun s ra => ?effect, checksRegister_of_exec_eq exec_jmp, fetchedUpTo_toInstr .jmp⟩
  case effect =>
    have next : exec (.jmp (regByte ra)) s = .next (s.jump (s.reg ra)) := by rw [exec_jmp, withReg_regByte]
    exact ⟨_, next, (s.jump_pc_toNat _).2, s.withPc_frame _⟩

/-- Settles O32: the conditional jump on E. -/
theorem jeqRule : Obligations.JeqRule := by
  refine ⟨fun _ => rfl, fun s ra => ?effect, checksRegister_of_exec_eq exec_jeq, fetchedUpTo_toInstr .jeq⟩
  case effect =>
    have next : exec (.jeq (regByte ra)) s = .next (s.jumpIf s.E (s.reg ra)) := by rw [exec_jeq, withReg_regByte]
    exact ⟨_, next, fun taken => s.jumpIf_pc_taken taken _, fun untaken => s.jumpIf_pc_untaken untaken _,
      s.jumpIf_frame _ _⟩

/-- Settles O33: the conditional jump on the negation of E. -/
theorem jneRule : Obligations.JneRule := by
  refine ⟨fun _ => rfl, fun s ra => ?effect, checksRegister_of_exec_eq exec_jne, fetchedUpTo_toInstr .jne⟩
  case effect =>
    have next : exec (.jne (regByte ra)) s = .next (s.jumpIf (!s.E) (s.reg ra)) := by rw [exec_jne, withReg_regByte]
    exact ⟨_, next, fun equal => s.jumpIf_pc_taken (by simp [equal]) _,
      fun equal => s.jumpIf_pc_untaken (by simp [equal]) _, s.jumpIf_frame _ _⟩

end

section
/-! The stack family (44_stack.md R81 to R83): what a byte stored at the top reads back as, what PUSH and POP keep, and
the round trip of the two. The fetch and the operand check are those of the families before. -/

namespace Sys2Proof.Machine

open Sys2Proof.Claims

/-! ### The top of the stack -/

theorem State.storeTop_memRead_top {s : State} (h : s.M.wf) (r : RegIdx) : (s.storeTop r).memRead s.sp = s.reg r :=
  Memory.read_write_same h s.sp (s.reg r)

theorem State.storeTop_memRead_ne (s : State) {a : Addr} (h : a ≠ s.sp) (r : RegIdx) :
    (s.storeTop r).memRead a = s.memRead a :=
  Memory.read_write_ne s.M (s.reg r) h

/-- The byte that a store at the top left is the register's own value, so loading it back changes no register. -/
theorem State.storeTop_loadTop_reg {s : State} (h : s.M.wf) (r q : RegIdx) :
    ((s.storeTop r).loadTop r).reg q = s.reg q := by
  rw [State.loadTop_reg, State.storeTop_sp, State.storeTop_memRead_top h, State.storeTop_reg]
  split
  · next same => rw [same]
  · rfl

theorem State.decSp_reg_ne (s : State) {q : RegIdx} (h : q ≠ 7) : s.decSp.reg q = s.reg q := s.setReg_reg_ne _ h

theorem State.incSp_reg_ne (s : State) {q : RegIdx} (h : q ≠ 7) : s.incSp.reg q = s.reg q := s.setReg_reg_ne _ h

theorem State.loadTop_reg_same (s : State) (r : RegIdx) : (s.loadTop r).reg r = s.memRead s.sp :=
  s.setReg_reg_same r _

theorem State.loadTop_reg_ne (s : State) {r q : RegIdx} (h : q ≠ r) : (s.loadTop r).reg q = s.reg q :=
  s.setReg_reg_ne _ h

/-- SP wraps modulo 256 when it is decremented (R81). -/
theorem State.decSp_sp_toNat (s : State) : s.decSp.sp.toNat = (s.sp.toNat + 255) % 256 := by
  rw [State.decSp_sp, BitVec.toNat_sub, Nat.add_comm]
  rfl

/-- SP wraps modulo 256 when it is incremented (R81). -/
theorem State.incSp_sp_toNat (s : State) : s.incSp.sp.toNat = (s.sp.toNat + 1) % 256 := by
  rw [State.incSp_sp, BitVec.toNat_add]
  rfl

/-! ### PUSH and POP -/

theorem exec_push (s : State) (a : Byte) :
    exec (.push a) s = withReg s a fun ra => (s.decSp.storeTop ra).advance 2 := rfl

theorem exec_pop (s : State) (a : Byte) :
    exec (.pop a) s = withReg s a fun ra => (s.loadTop ra).incSp.advance 2 := rfl

theorem exec_push_regByte (s : State) (ra : RegIdx) :
    exec (.push (regByte ra)) s = .next ((s.decSp.storeTop ra).advance 2) := by
  rw [exec_push, withReg_regByte]

theorem exec_pop_regByte (s : State) (ra : RegIdx) :
    exec (.pop (regByte ra)) s = .next ((s.loadTop ra).incSp.advance 2) := by
  rw [exec_pop, withReg_regByte]

/-- What PUSH keeps besides memory: all but SP and `pc`. -/
theorem State.push_frame (s : State) (r : RegIdx) (n : Nat) :
    RegsKeptBut s ((s.decSp.storeTop r).advance n) [7] ∧ FlagsKept s ((s.decSp.storeTop r).advance n) ∧
      RunAndOutKept s ((s.decSp.storeTop r).advance n) :=
  ⟨fun _ hq => s.decSp_reg_ne (List.ne_of_not_mem_cons hq), ⟨rfl, rfl, rfl⟩, rfl, rfl⟩

/-- What POP keeps: all but the register it loads, SP and `pc`. -/
theorem State.pop_frame (s : State) (r : RegIdx) (n : Nat) :
    RegsKeptBut s ((s.loadTop r).incSp.advance n) [r, 7] ∧ FlagsKept s ((s.loadTop r).incSp.advance n) ∧
      MemoryKept s ((s.loadTop r).incSp.advance n) ∧ RunAndOutKept s ((s.loadTop r).incSp.advance n) := by
  refine ⟨fun q hq => ?regs, ⟨rfl, rfl, rfl⟩, fun _ => rfl, rfl, rfl⟩
  case regs =>
    obtain ⟨notLoaded, notSp⟩ : q ≠ r ∧ q ≠ 7 := by simpa using hq
    calc (s.loadTop r).incSp.reg q
      _ = (s.loadTop r).reg q := State.incSp_reg_ne _ notSp
      _ = s.reg q := s.loadTop_reg_ne notLoaded

/-- A load of what was just stored, between a decrement and an increment of SP, leaves every register as it was. -/
theorem State.push_pop_reg {s : State} (h : s.M.wf) (r q : RegIdx) :
    ((s.decSp.storeTop r).loadTop r).incSp.reg q = s.reg q := by
  have loaded : ∀ p, ((s.decSp.storeTop r).loadTop r).reg p = s.decSp.reg p :=
    State.storeTop_loadTop_reg (s := s.decSp) h r
  by_cases hq : q = 7
  · subst hq
    calc ((s.decSp.storeTop r).loadTop r).incSp.reg 7
      _ = ((s.decSp.storeTop r).loadTop r).sp + 1 := State.incSp_sp _
      _ = s.decSp.sp + 1 := congrArg (· + 1) (loaded 7)
      _ = s.sp := by rw [State.decSp_sp, BitVec.sub_add_cancel]
  · rw [State.incSp_reg_ne _ hq, loaded q, s.decSp_reg_ne hq]

end Sys2Proof.Machine

open Sys2Proof Sys2Proof.Machine

/-- Settles O34: the store is at the decremented SP, and the byte stored is the register as the decrement left it. -/
theorem pushRule : Obligations.PushRule := by
  refine ⟨fun _ => rfl, fun s ra => ?effect, checksRegister_of_exec_eq exec_push, fetchedUpTo_toInstr .push⟩
  case effect =>
    have stored (h : s.M.wf) : (s.decSp.storeTop ra).memRead s.decSp.sp = s.decSp.reg ra :=
      State.storeTop_memRead_top (s := s.decSp) h ra
    refine ⟨_, exec_push_regByte s ra, s.decSp_sp_toNat, rfl, rfl, fun h ne => ?other, fun h eq => ?stackPointer,
      fun a ne => s.decSp.storeTop_memRead_ne ne ra, s.push_frame ra 2⟩
    case other => exact (stored h).trans (s.decSp_reg_ne ne)
    case stackPointer =>
      subst eq
      exact stored h

/-- Settles O35: the increment comes after the load, so for r7 it is the loaded byte that is incremented. -/
theorem popRule : Obligations.PopRule := by
  refine ⟨fun _ => rfl, fun s ra => ?effect, checksRegister_of_exec_eq exec_pop, fetchedUpTo_toInstr .pop⟩
  case effect =>
    have incremented := (s.loadTop ra).incSp_sp_toNat
    refine ⟨_, exec_pop_regByte s ra, rfl, fun ne => ⟨?loaded, ?stackPointer⟩, fun eq => ?loadedStackPointer,
      s.pop_frame ra 2⟩
    case loaded => exact (State.incSp_reg_ne _ ne).trans (s.loadTop_reg_same ra)
    case stackPointer => rwa [State.sp_eq (s.loadTop ra), s.loadTop_reg_ne ne.symm] at incremented
    case loadedStackPointer =>
      subst eq
      rwa [State.sp_eq (s.loadTop 7), s.loadTop_reg_same 7] at incremented

/-- Settles O36: the registers are those of `State.push_pop_reg`, and only PUSH writes memory. -/
theorem pushThenPopRestores : Obligations.PushThenPopRestores := by
  intro s ra h
  refine ⟨_, _, exec_push_regByte s ra, exec_pop_regByte _ ra, ?registers, ?pc, ⟨rfl, rfl, rfl⟩,
    fun a ne => ?memory⟩
  case registers => exact State.x_ext (State.push_pop_reg h ra)
  case pc => exact BitVec.add_assoc s.pc 2 2
  case memory => exact s.decSp.storeTop_memRead_ne ne ra

end

section
/-! The two faults (60_exceptions.md section 2): a FetchOverrun is what the fetch finds, a BadRegister what the operand
check of the executed instruction finds, and each is recorded exactly then. -/

namespace Sys2Proof

/-- Well-formedness, operand by operand (30_encoding.md R51). -/
theorem Instr.wellFormed_iff {i : Instr} : i.WellFormed = true ↔ ∀ v ∈ i.regOperands, v.toNat < 8 := by
  simp [Instr.WellFormed]

theorem Instr.wellFormed_eq_false_of_operand {i : Instr} {v : Byte} (mem : v ∈ i.regOperands) (bad : 8 ≤ v.toNat) :
    i.WellFormed = false :=
  Bool.eq_false_iff.mpr fun wf => bad.not_gt (Instr.wellFormed_iff.mp wf v mem)

end Sys2Proof

namespace Sys2Proof.Machine

variable {s t : State} {i : Instr}

/-- What `status` and the fault's record show of a Faulted core (10_state.md R32, 60_exceptions.md R85). -/
theorem State.shows_fault {c : Cause} (h : s.run = .faulted c) :
    s.status = .faulted c ∧ s.faultRecord = some (c.code, c.info) :=
  ⟨h, by simp [State.faultRecord, h]⟩

/-! ### FetchOverrun -/

/-- The fetch overruns exactly where `pc` is no address, or the known opcode there has its last byte past address 255
(40_execution_cycle.md R61, 60_exceptions.md R86). -/
theorem State.fetch_eq_overrun_iff : s.fetch = .overrun ↔
    255 < s.pc.toNat ∨ ∃ o, opcodeOf s.opcodeByte = some o ∧ 255 < s.pc.toNat + o.length - 1 := by
  rcases Nat.lt_or_ge 255 s.pc.toNat with past | hpc
  · exact iff_of_true (State.fetch_of_pc_past past) (.inl past)
  cases hop : opcodeOf s.opcodeByte with
  | none => simp [State.fetch_of_opcode_unknown hpc hop, hpc]
  | some o =>
    have known : s.opcodeByte = o.byte := opcodeOf_eq_some.mp hop
    rcases Nat.lt_or_ge 256 (s.pc.toNat + o.length) with long | fits
    · exact iff_of_true (State.fetch_of_opcode_long hpc known long) (.inr ⟨o, rfl, by omega⟩)
    · have fetched := (State.atPc_toInstr known fits).fetch_eq
      have inside : ¬ 255 < s.pc.toNat + o.length - 1 := by omega
      simp [fetched, hpc, inside]

/-- A step records a FetchOverrun exactly where the fetch overruns, and it records `pc`. -/
theorem step_records_fetchOverrun_iff (hrun : s.run = .running) (h : step s = .next t) (p : PcWord) :
    t.run = .faulted (.fetchOverrun p) ↔ p = s.pc ∧ s.fetch = .overrun := by
  rcases step_next_cases hrun h with ⟨⟨op, hf⟩, rfl⟩ | ⟨i, hf, effect⟩ | ⟨hf, rfl⟩ | ⟨i, hf, v, -, -, rfl⟩
  · simp [hrun, hf]
  · simp [effect.not_faulted hrun, hf]
  · simp [hf, eq_comm]
  · simp [hf]

/-! ### BadRegister -/

theorem regByte_lt (r : RegIdx) : (regByte r).toNat < 8 := (regByte_toNat r).trans_lt r.isLt

/-- Only an instruction whose register operands all name registers has its effect. -/
theorem Effect.wellFormed (e : Effect s i t) : i.WellFormed = true := by
  rw [Instr.wellFormed_iff]
  cases i with
  | hlt => simp [Instr.regOperands]
  | ldi | prn | jmp | jeq | jne | push | pop =>
    obtain ⟨ra, rfl, -⟩ := e
    simp [Instr.regOperands, regByte_lt]
  | mul | add | cmp =>
    obtain ⟨ra, rb, rfl, rfl, -⟩ := e
    simp [Instr.regOperands, regByte_lt]

/-- Well-formedness decides what `exec` does: the instruction's effect, or the raise for an operand above 7
(60_exceptions.md R87). -/
theorem exec_next_wellFormed_cases (h : exec i s = .next t) :
    (i.WellFormed = true ∧ Effect s i t) ∨
      (i.WellFormed = false ∧ ∃ v ∈ i.regOperands, 8 ≤ v.toNat ∧ t = s.raise (.badRegister v)) := by
  rcases exec_next_cases h with effect | ⟨v, mem, bad, raised⟩
  · exact .inl ⟨effect.wellFormed, effect⟩
  · exact .inr ⟨Instr.wellFormed_eq_false_of_operand mem bad, v, mem, bad, raised⟩

end Sys2Proof.Machine

open Sys2Proof Sys2Proof.Machine

/-- Settles O8: the record is the fetch's overrun, and the fetch overruns exactly past address 255. -/
theorem fetchOverrunExactlyPastTheEnd : Obligations.FetchOverrunExactlyPastTheEnd := by
  intro s t p hrun hstep
  have recorded := step_records_fetchOverrun_iff hrun hstep p
  refine ⟨recorded.trans (and_congr_right' State.fetch_eq_overrun_iff), fun hfault => ?_⟩
  obtain ⟨rfl, -⟩ := recorded.mp hfault
  exact State.shows_fault hfault

/-- Settles O17, by whether the instruction at `pc` is well-formed: its effect records no fault, and the raise records
an operand above 7. -/
theorem badRegisterExactlyOnBadOperands : Obligations.BadRegisterExactlyOnBadOperands := by
  intro s t i hrun hat hstep
  rw [step_of_atPc hrun hat] at hstep
  rcases exec_next_wellFormed_cases hstep with ⟨wf, effect⟩ | ⟨ill, w, mem, bad, rfl⟩
  · have none_recorded := fun v => effect.not_faulted hrun (.badRegister v)
    exact ⟨fun v hv => absurd hv (none_recorded v), by simp [wf, none_recorded]⟩
  · refine ⟨fun v hv => ?_, iff_of_true ⟨w, rfl⟩ ill⟩
    obtain rfl : w = v := by simpa using hv
    exact ⟨mem, bad, State.shows_fault hv⟩

end

section
/-! The loader's text (70_reset_and_hazards.md R101, R102): what one line contributes (a skipped line, a token line, a
byte's own line), what the lines of a text contribute together, and the host's load of a text. -/

namespace Sys2Proof.Claims

open Sys2Proof.Machine

variable {blanks token after : List Char}

/-! ### Tokens and their values -/

/-- The loader's left-to-right value of binary digits is the number they stand for. -/
theorem foldl_binary_eq_binaryNumber (token : List Char) :
    token.foldl (fun n c => 2 * n + if c = '1' then 1 else 0) 0 = binaryNumber token := by
  simp [binaryNumber, Nat.ofDigits_eq_foldr, List.foldl_map, add_comm]

theorem binaryValue_of_isBinary (h : IsBinary token) : binaryValue token = some (binaryNumber token) := by
  obtain ⟨nonempty, digits⟩ := h
  rw [binaryValue, if_pos ⟨nonempty, by simpa using digits⟩, foldl_binary_eq_binaryNumber]

theorem binaryValue_of_not_isBinary (h : ¬ IsBinary token) : binaryValue token = none :=
  if_neg fun ⟨nonempty, digits⟩ => h ⟨nonempty, by simpa using digits⟩

/-! ### A token line -/

/-- A character of no white space is not a newline. -/
theorem newline_not_mem_of_not_isWhitespace {cs : List Char} (h : ∀ c ∈ cs, c.isWhitespace = false) : '\n' ∉ cs :=
  fun mem => absurd (h '\n' mem) (by decide)

theorem IsTokenLine.newline_not_mem (h : IsTokenLine blanks token after) : '\n' ∉ blanks ++ token ++ after := by
  obtain ⟨hblanks, -, htoken, hafter, -, -⟩ := h
  have inBlanks : '\n' ∉ blanks := fun mem => (hblanks '\n' mem).2 rfl
  simp [inBlanks, newline_not_mem_of_not_isWhitespace htoken, hafter]

theorem IsTokenLine.firstToken_eq (h : IsTokenLine blanks token after) :
    firstToken (blanks ++ token ++ after) = token := by
  obtain ⟨hblanks, nonempty, htoken, -, hafter, -⟩ := h
  exact firstToken_line (fun c mem => (hblanks c mem).1) htoken nonempty hafter

/-- A token line is neither a comment (its first column is white space or no `#`) nor blank (its token is not). -/
theorem IsTokenLine.skipLine_eq_false (h : IsTokenLine blanks token after) :
    skipLine (blanks ++ token ++ after) = false := by
  obtain ⟨hblanks, nonempty, htoken, -, -, noComment⟩ := h
  obtain ⟨c, cs, rfl⟩ := List.exists_cons_of_ne_nil nonempty
  have notBlank : c.isWhitespace = false := htoken c List.mem_cons_self
  cases blanks with
  | nil => simpa [skipLine, notBlank] using noComment
  | cons b bs =>
    have blank : b.isWhitespace = true := (hblanks b List.mem_cons_self).1
    have notMark : b ≠ '#' := by rintro rfl; exact absurd blank (by decide)
    simp [skipLine, notMark, notBlank]

/-- The three outcomes of a token line (R101, R102): a malformed token, a value above 255, a byte. -/
theorem IsTokenLine.lineByte_of_not_isBinary (h : IsTokenLine blanks token after) (bad : ¬ IsBinary token) :
    lineByte (blanks ++ token ++ after) = .error (.malformedToken token) := by
  simp only [lineByte, h.firstToken_eq, binaryValue_of_not_isBinary bad]

theorem IsTokenLine.lineByte_of_above (h : IsTokenLine blanks token after) (binary : IsBinary token)
    (above : 255 < binaryNumber token) :
    lineByte (blanks ++ token ++ after) = .error (.valueAbove255 (binaryNumber token)) := by
  simp only [lineByte, h.firstToken_eq, binaryValue_of_isBinary binary]
  exact if_neg (by omega)

theorem IsTokenLine.lineByte_of_fits (h : IsTokenLine blanks token after) (binary : IsBinary token)
    (fits : binaryNumber token ≤ 255) :
    lineByte (blanks ++ token ++ after) = .ok (BitVec.ofNat 8 (binaryNumber token)) := by
  simp only [lineByte, h.firstToken_eq, binaryValue_of_isBinary binary]
  exact if_pos (by omega)

/-! ### The line of a byte -/

/-- The eight binary digits of a byte's line, without the newline. -/
def byteDigits (b : Byte) : List Char :=
  [7, 6, 5, 4, 3, 2, 1, 0].map fun k => if b.getLsbD k then '1' else '0'

theorem byteLine_append (b : Byte) (text : List Char) : byteLine b ++ text = byteDigits b ++ '\n' :: text :=
  List.append_assoc _ ['\n'] text

theorem byteDigits_isBinary (b : Byte) : IsBinary (byteDigits b) := by
  refine ⟨List.cons_ne_nil _ _, fun c mem => ?_⟩
  obtain ⟨k, -, rfl⟩ := List.mem_map.mp mem
  cases b.getLsbD k with
  | false => exact .inl rfl
  | true => exact .inr rfl

/-- The digits are the byte's bits, so their number is the byte. -/
theorem binaryNumber_byteDigits (b : Byte) : binaryNumber (byteDigits b) = b.toNat := by
  have bit (k : Nat) : (if (if b.getLsbD k then '1' else '0') = '1' then 1 else 0) = (b.toNat.testBit k).toNat := by
    rw [BitVec.testBit_toNat]
    cases b.getLsbD k <;> rfl
  calc binaryNumber (byteDigits b)
    _ = Nat.ofDigits 2 ([0, 1, 2, 3, 4, 5, 6, 7].map fun k => (b.toNat.testBit k).toNat) := by
      simp only [binaryNumber, byteDigits, ← List.map_reverse, List.map_map, Function.comp_def, bit]
      rfl
    _ = Nat.ofBits fun k : Fin 8 => b.toNat.testBit k := by
      simp only [List.map_cons, List.map_nil, Nat.ofDigits_cons, Nat.ofDigits_nil, Nat.ofBits_succ]
      simp [add_comm]
    _ = b.toNat := by rw [Nat.ofBits_testBit, Nat.mod_eq_of_lt b.isLt]

/-- Binary digits alone make a token line. -/
theorem IsBinary.isTokenLine (h : IsBinary token) : IsTokenLine [] token [] := by
  obtain ⟨nonempty, digits⟩ := h
  refine ⟨by simp, nonempty, fun c mem => ?_, by simp, by simp, fun _ mark => ?_⟩
  · obtain rfl | rfl := digits c mem <;> decide
  · simpa using digits '#' (List.mem_of_mem_head? mark)

theorem byteDigits_newline_not_mem (b : Byte) : '\n' ∉ byteDigits b := by
  simpa using (byteDigits_isBinary b).isTokenLine.newline_not_mem

theorem skipLine_byteDigits (b : Byte) : skipLine (byteDigits b) = false := by
  simpa using (byteDigits_isBinary b).isTokenLine.skipLine_eq_false

theorem lineByte_byteDigits (b : Byte) : lineByte (byteDigits b) = .ok b := by
  have binary := byteDigits_isBinary b
  have number := binaryNumber_byteDigits b
  simpa [number] using binary.isTokenLine.lineByte_of_fits binary (by omega)

end Sys2Proof.Claims

namespace Sys2Proof.Machine

open Sys2Proof.Claims

variable {line : List Char}

/-! ### Lines together -/

theorem linesBytes_cons_of_skipped (h : skipLine line = true) (lines : List (List Char)) :
    linesBytes (line :: lines) = linesBytes lines := if_pos h

theorem linesBytes_cons_of_bad (kept : skipLine line = false) {r : LoadRefusal} (bad : lineByte line = .error r)
    (lines : List (List Char)) : linesBytes (line :: lines) = .error r := by
  simp [linesBytes, kept, bad]

theorem linesBytes_cons_of_good (kept : skipLine line = false) {b : Byte} (good : lineByte line = .ok b)
    (lines : List (List Char)) : linesBytes (line :: lines) = (linesBytes lines).map (b :: ·) := by
  cases rest : linesBytes lines <;> simp [linesBytes, kept, good, rest, Except.map]

/-- The lines of bytes before a text give those bytes before the text's. -/
theorem linesBytes_textLines_byteLines (bytes : List Byte) (text : List Char) :
    linesBytes (textLines (bytes.flatMap byteLine ++ text)) = (linesBytes (textLines text)).map (bytes ++ ·) := by
  induction bytes with
  | nil =>
    rw [List.flatMap_nil, List.nil_append]
    cases linesBytes (textLines text) <;> rfl
  | cons b bs ih =>
    rw [List.flatMap_cons, List.append_assoc, byteLine_append, textLines_line (byteDigits_newline_not_mem b),
      linesBytes_cons_of_good (skipLine_byteDigits b) (lineByte_byteDigits b), ih]
    cases linesBytes (textLines text) <;> rfl

/-! ### Whole texts -/

variable {text text' : List Char} {bytes : List Byte}

theorem parseProgram_of_refused {r : LoadRefusal} (h : linesBytes (textLines text) = .error r) :
    parseProgram text = .error r := by
  simp only [parseProgram, h]

theorem parseProgram_of_fits (h : linesBytes (textLines text) = .ok bytes) (fits : bytes.length ≤ 256) :
    parseProgram text = .ok bytes := by
  simp only [parseProgram, h]
  exact if_pos fits

theorem parseProgram_of_too_many (h : linesBytes (textLines text) = .ok bytes) (many : 256 < bytes.length) :
    parseProgram text = .error (.tooManyBytes bytes.length) := by
  simp only [parseProgram, h]
  exact if_neg many.not_ge

/-- What parses fits memory (R102). -/
theorem length_le_of_parseProgram (h : parseProgram text = .ok bytes) : bytes.length ≤ 256 := by
  cases hl : linesBytes (textLines text) with
  | error r => simp [parseProgram_of_refused hl] at h
  | ok image =>
    rcases Nat.lt_or_ge 256 image.length with many | fits
    · simp [parseProgram_of_too_many hl many] at h
    · obtain rfl : image = bytes := by simpa [parseProgram_of_fits hl fits] using h
      exact fits

/-- A text parses as its lines do. -/
theorem parseProgram_congr (h : linesBytes (textLines text) = linesBytes (textLines text')) :
    parseProgram text = parseProgram text' := by
  simp only [parseProgram, h]

/-- A skipped line before a text changes nothing of what it parses as. -/
theorem parseProgram_of_skipped_line (h : '\n' ∉ line) (skipped : skipLine line = true) (text : List Char) :
    parseProgram (line ++ '\n' :: text) = parseProgram text :=
  parseProgram_congr (by rw [textLines_line h, linesBytes_cons_of_skipped skipped])

/-- A line that gives no byte refuses the whole text, whatever byte lines stand before it and lines after it. -/
theorem parseProgram_of_bad_line (h : '\n' ∉ line) (kept : skipLine line = false) {r : LoadRefusal}
    (bad : lineByte line = .error r) (bytes : List Byte) (rest : List Char) :
    parseProgram (bytes.flatMap byteLine ++ line ++ '\n' :: rest) = .error r := by
  apply parseProgram_of_refused
  rw [List.append_assoc, linesBytes_textLines_byteLines, textLines_line h, linesBytes_cons_of_bad kept bad]
  rfl

/-- A line that gives a byte parses as that byte's own line. -/
theorem parseProgram_of_good_line (h : '\n' ∉ line) (kept : skipLine line = false) {b : Byte}
    (good : lineByte line = .ok b) (bytes : List Byte) (rest : List Char) :
    parseProgram (bytes.flatMap byteLine ++ line ++ '\n' :: rest) =
      parseProgram (bytes.flatMap byteLine ++ byteLine b ++ rest) := by
  apply parseProgram_congr
  simp only [List.append_assoc, linesBytes_textLines_byteLines, byteLine_append, textLines_line h,
    textLines_line (byteDigits_newline_not_mem b), linesBytes_cons_of_good kept good,
    linesBytes_cons_of_good (skipLine_byteDigits b) (lineByte_byteDigits b)]

/-- A last line needs no newline after it. -/
theorem parseProgram_of_good_last_line (h : '\n' ∉ line) (kept : skipLine line = false) {b : Byte}
    (good : lineByte line = .ok b) {bytes : List Byte} (fits : bytes.length ≤ 255) :
    parseProgram (bytes.flatMap byteLine ++ line) = .ok (bytes ++ [b]) := by
  refine parseProgram_of_fits ?_ (by simpa using Nat.lt_succ_of_le fits)
  rw [linesBytes_textLines_byteLines, textLines_single h, linesBytes_cons_of_good kept good]
  rfl

/-! ### The host's load -/

variable {h h' : Session} {image : List Byte}

/-- An image is loaded exactly after reset and where it fits (R30, R99). -/
theorem Session.move_load_eq_ok_iff :
    h.move (.load image) = .ok h' ↔
      h.phase = .ready ∧ image.length ≤ Config.memSize ∧ h' = ⟨.loaded, h.core.load image⟩ := by
  by_cases hp : h.phase = .ready
  · rcases Nat.lt_or_ge Config.memSize image.length with long | fits
    · simp [Session.move_load_of_too_long hp long, long.not_ge]
    · simp [Session.move_load_of_fits hp fits, hp, fits, eq_comm]
  · cases hx : h.executing with
    | true => simp [Session.move_of_executing hx, hp]
    | false => simp [Session.move_load_of_phase_ne_ready hx hp, hp]

theorem Session.loadText_of_refused {r : LoadRefusal} (hr : parseProgram text = .error r) :
    h.loadText text = .error (.inl r) := by
  simp only [Session.loadText, hr]

/-- A text is loaded exactly where it parses and its image may be loaded (R102). -/
theorem Session.loadText_eq_ok_iff :
    h.loadText text = .ok h' ↔ ∃ image, parseProgram text = .ok image ∧ h.move (.load image) = .ok h' := by
  cases hp : parseProgram text with
  | error r => simp [Session.loadText_of_refused hp]
  | ok image => cases hm : h.move (.load image) <;> simp [Session.loadText, hp, hm]

end Sys2Proof.Machine

open Sys2Proof Sys2Proof.Machine Sys2Proof.Claims

/-- Settles O43: the lines give the bytes, and only their count decides. -/
theorem loaderReadsByteLines : Obligations.LoaderReadsByteLines := by
  intro bytes
  have given : linesBytes (textLines (bytes.flatMap byteLine)) = .ok bytes := by
    have lines := linesBytes_textLines_byteLines bytes []
    rwa [List.append_nil, show linesBytes (textLines []) = .ok [] from rfl, Except.map, List.append_nil] at lines
  exact ⟨parseProgram_of_fits given, parseProgram_of_too_many given⟩

/-- Settles O44: the loader skips both lines. -/
theorem loaderSkipsCommentsAndBlanks : Obligations.LoaderSkipsCommentsAndBlanks := by
  intro line text noNewline
  have comment : skipLine ('#' :: line) = true := by simp [skipLine]
  refine ⟨parseProgram_of_skipped_line (by simpa using noNewline) comment text, fun blank => ?_⟩
  exact parseProgram_of_skipped_line noNewline (by simp [skipLine, blank]) text

/-- Settles O47, by the three outcomes of a token line. -/
theorem loaderReadsOrRefusesATokenLine : Obligations.LoaderReadsOrRefusesATokenLine := by
  intro bytes blanks token after rest line
  have noNewline := line.newline_not_mem
  have kept := line.skipLine_eq_false
  refine ⟨fun malformed => ?malformed, fun binary above => ?above, fun binary fits => ?byte,
    fun binary fits room => ?lastByte⟩
  case malformed =>
    exact parseProgram_of_bad_line noNewline kept (line.lineByte_of_not_isBinary malformed) bytes rest
  case above => exact parseProgram_of_bad_line noNewline kept (line.lineByte_of_above binary above) bytes rest
  case byte => exact parseProgram_of_good_line noNewline kept (line.lineByte_of_fits binary fits) bytes rest
  case lastByte => exact parseProgram_of_good_last_line noNewline kept (line.lineByte_of_fits binary fits) room

/-- Settles O48: a load is accepted exactly after reset, of a text that parses. -/
theorem loadTextTakesTheWholeOrNothing : Obligations.LoadTextTakesTheWholeOrNothing := by
  intro h text
  refine ⟨fun r refused => ⟨Session.loadText_of_refused refused, Session.move_run_of_ready⟩,
    fun image parsed hp => ?accepted, fun h' loaded => ?onlyThen⟩
  case accepted =>
    have fits := length_le_of_parseProgram parsed
    exact ⟨fits, Session.loadText_eq_ok_iff.mpr ⟨image, parsed, Session.move_load_of_fits hp fits⟩⟩
  case onlyThen =>
    obtain ⟨image, parsed, moved⟩ := Session.loadText_eq_ok_iff.mp loaded
    obtain ⟨hp, -, rfl⟩ := Session.move_load_eq_ok_iff.mp moved
    exact ⟨hp, image, parsed, rfl⟩

end

section
/-! The decoder on every list of bytes (30_encoding.md): a list is empty, begins with an unknown byte, holds a known opcode
with too few bytes after it, or is an instruction's encoding followed by a rest. -/

namespace Sys2Proof

open Sys2Proof.Claims

/-- The bytes that a known opcode needs are those of one instruction. -/
theorem opcode_cons_eq_encode_append {o : Opcode} {rest : List Byte} (fits : o.length ≤ rest.length + 1) :
    ∃ i tail, o.byte :: rest = encode i ++ tail := by
  have bounds := o.length_bounds
  obtain len | len | len : o.length = 1 ∨ o.length = 2 ∨ o.length = 3 := by omega
  · exact ⟨o.toInstr 0 0, rest, by simp [encode_toInstr, len]⟩
  · match rest, fits with
    | [], short => exact absurd short (by simp [len])
    | a :: tail, _ => exact ⟨o.toInstr a 0, tail, by simp [encode_toInstr, len]⟩
  · match rest, fits with
    | [], short | [_], short => exact absurd short (by simp [len])
    | a :: b :: tail, _ => exact ⟨o.toInstr a b, tail, by simp [encode_toInstr, len]⟩

/-- Everything a list of bytes can be to the decoder. -/
theorem bytes_cases (bytes : List Byte) :
    bytes = [] ∨ (∃ op rest, bytes = op :: rest ∧ opcodeOf op = none) ∨
      (∃ o rest, bytes = Opcode.byte o :: rest ∧ rest.length + 1 < o.length) ∨ ∃ i tail, bytes = encode i ++ tail := by
  cases bytes with
  | nil => exact .inl rfl
  | cons op rest =>
    cases hop : opcodeOf op with
    | none => exact .inr (.inl ⟨op, rest, rfl, hop⟩)
    | some o =>
      obtain rfl := opcodeOf_eq_some.mp hop
      rcases Nat.lt_or_ge (rest.length + 1) o.length with short | fits
      · exact .inr (.inr (.inl ⟨o, rest, rfl, short⟩))
      · exact .inr (.inr (.inr (opcode_cons_eq_encode_append fits)))

/-- What is read is the encoding of what is answered. -/
theorem eq_encode_append_of_decode {bytes rest : List Byte} {i : Instr} (h : decode bytes = .ok (i, rest)) :
    bytes = encode i ++ rest := by
  rcases bytes_cases bytes with rfl | ⟨op, tail, rfl, hop⟩ | ⟨o, tail, rfl, short⟩ | ⟨j, tail, rfl⟩
  · cases h
  · cases (decode_unknown hop tail).symm.trans h
  · cases (decode_truncated short).symm.trans h
  · cases (decode_encode_append j tail).symm.trans h
    rfl

theorem decode_eq_truncated_iff (o : Opcode) (rest : List Byte) :
    decode (o.byte :: rest) = .error (.truncated o) ↔ rest.length + 1 < o.length := by
  refine ⟨fun h => Nat.lt_of_not_le fun fits => ?_, decode_truncated⟩
  obtain ⟨i, tail, bytes⟩ := opcode_cons_eq_encode_append fits
  rw [bytes, decode_encode_append] at h
  cases h

/-- The decoder calls a first byte unknown exactly when the opcode map has no entry for it. -/
theorem decode_eq_unknownOpcode_iff (op : Byte) (rest : List Byte) :
    decode (op :: rest) = .error (.unknownOpcode op) ↔ opcodeOf op = none := by
  refine ⟨fun h => ?_, fun hop => decode_unknown hop rest⟩
  rcases bytes_cases (op :: rest) with empty | ⟨_, _, same, hop⟩ | ⟨o, tail, bytes, short⟩ | ⟨i, tail, bytes⟩
  · cases empty
  · cases same
    exact hop
  · cases (decode_truncated short).symm.trans (bytes ▸ h)
  · cases (decode_encode_append i tail).symm.trans (bytes ▸ h)

/-- The numbers that are no opcode byte are the listed ones (30_encoding.md R54, R56). -/
theorem exists_opcode_byte_iff {n : Nat} (small : n < 256) : (∃ o : Opcode, o.byte.toNat = n) ↔ ¬ isUnknownByte n := by
  constructor
  · rintro ⟨o, rfl⟩
    cases o <;> simp [isUnknownByte, Opcode.byte]
  · intro listed
    have known : n = 0x01 ∨ n = 0x45 ∨ n = 0x46 ∨ n = 0x47 ∨ n = 0x54 ∨ n = 0x55 ∨ n = 0x56 ∨ n = 0x82 ∨ n = 0xA0 ∨
        n = 0xA2 ∨ n = 0xA7 := by
      unfold isUnknownByte at listed
      omega
    rcases known with rfl | rfl | rfl | rfl | rfl | rfl | rfl | rfl | rfl | rfl | rfl
    exacts [⟨.hlt, rfl⟩, ⟨.push, rfl⟩, ⟨.pop, rfl⟩, ⟨.prn, rfl⟩, ⟨.jmp, rfl⟩, ⟨.jeq, rfl⟩, ⟨.jne, rfl⟩, ⟨.ldi, rfl⟩,
      ⟨.add, rfl⟩, ⟨.mul, rfl⟩, ⟨.cmp, rfl⟩]

theorem opcodeOf_eq_none_iff (op : Byte) : opcodeOf op = none ↔ isUnknownByte op.toNat := by
  have known : (∃ o, opcodeOf op = some o) ↔ ∃ o : Opcode, o.byte.toNat = op.toNat :=
    exists_congr fun o => opcodeOf_eq_some.trans (eq_comm.trans BitVec.toNat_inj.symm)
  rw [Option.eq_none_iff_forall_ne_some, ← not_exists, known, exists_opcode_byte_iff op.isLt, not_not]

end Sys2Proof

namespace Sys2Proof.Machine

variable {s : State}

/-- Where `pc` is an address, the listing there and the fetch read the same bytes (30_encoding.md R59), so they find the
same thing. -/
theorem State.fetch_disassemble_cases (hpc : s.pc.toNat ≤ 255) :
    (∃ i, s.fetch = .instr i ∧ disassemble s.M (BitVec.ofNat 8 s.pc.toNat) = .instr i) ∨
      (∃ op, s.fetch = .unknown op ∧ disassemble s.M (BitVec.ofNat 8 s.pc.toNat) = .unknown op) ∨
      ∃ o, s.fetch = .overrun ∧ disassemble s.M (BitVec.ofNat 8 s.pc.toNat) = .truncated o := by
  have address : (BitVec.ofNat 8 s.pc.toNat).toNat = s.pc.toNat := by
    rw [BitVec.toNat_ofNat]
    omega
  have bytes : ([s.pc.toNat, s.pc.toNat + 1, s.pc.toNat + 2].filterMap fun a =>
      if a < Config.memSize then some (s.M.read (BitVec.ofNat 8 a)) else none) = s.fetchBytes := rfl
  simp only [disassemble, address, bytes, State.fetch]
  rcases bytes_cases s.fetchBytes with empty | ⟨op, rest, e, hop⟩ | ⟨o, rest, e, short⟩ | ⟨i, tail, e⟩
  · obtain ⟨rest, nonempty⟩ := State.fetchBytes_head hpc
    cases empty.symm.trans nonempty
  · exact .inr (.inl ⟨op, by simp [e, decode_unknown hop]⟩)
  · exact .inr (.inr ⟨o, by simp [e, decode_truncated short]⟩)
  · exact .inl ⟨i, by simp [e, decode_encode_append]⟩

end Sys2Proof.Machine

open Sys2Proof Sys2Proof.Machine

/-- Settles O1: reading back is `decode_encode_append`, and nothing else is read. -/
theorem decodeAndEncodeAgree : Obligations.DecodeAndEncodeAgree := by
  intro bytes i rest
  refine ⟨eq_encode_append_of_decode, ?_⟩
  rintro rfl
  exact decode_encode_append i rest

/-- Settles O2: the byte is unknown to the decoder when the opcode map has no entry for it. -/
theorem unknownBytesAreTheListed : Obligations.UnknownBytesAreTheListed := fun op rest =>
  (decode_eq_unknownOpcode_iff op rest).trans (opcodeOf_eq_none_iff op)

/-- Settles O3: with enough bytes the decoder reads an instruction. -/
theorem truncatedExactlyWhenShort : Obligations.TruncatedExactlyWhenShort := decode_eq_truncated_iff

/-- Settles O4: each word is the encoding of its instruction, and an encoding decodes. -/
theorem writtenWordsDecode : Obligations.WrittenWordsDecode :=
  ⟨decode_encode_append (.add 0 1) [], decode_encode_append (.mul 0 1) [], decode_encode_append (.cmp 0 1) [],
    decode_encode_append (.ldi 0 8) [], decode_encode_append (.prn 0) [], decode_encode_append .hlt [],
    decode_encode_append (.jmp 2) [], decode_encode_append (.jeq 3) [], decode_encode_append (.jne 3) [],
    decode_encode_append (.push 0) [], decode_encode_append (.pop 1) []⟩

/-- Settles O45, by what the listing and the fetch both find. -/
theorem disassemblyAgreesWithFetch : Obligations.DisassemblyAgreesWithFetch := by
  intro s hpc
  rcases State.fetch_disassemble_cases hpc with ⟨i, fetched, listed⟩ | ⟨op, fetched, listed⟩ | ⟨o, fetched, listed⟩
  · rw [fetched, listed]; simp
  · rw [fetched, listed]; simp
  · rw [fetched, listed]; simp

end

section
/-! Everything an instruction writes besides `pc` (10_state.md R15, R22, R27), and so what it leaves unchanged; and the
step of every state: what it executes, that it answers a next state, and which steps halt or raise. -/

namespace Sys2Proof.Machine

open Sys2Proof.Claims

variable {s t : State} {i : Instr}

/-! ### What an instruction writes -/

theorem writtenRegs_pop (ra : RegIdx) : writtenRegs (.pop (regByte ra)) = [ra, 7] := by
  simp [writtenRegs, regByte_toNat]

/-- The one write that an instruction can make besides `pc`, by what it writes; a jump makes none. -/
inductive Writes (s : State) : Instr → State → Prop
  | pcOnly (i : Instr) (p : PcWord) : Writes s i { s with pc := p }
  | run (p : PcWord) : Writes s .hlt { s.halt with pc := p }
  | register {i : Instr} {ra : RegIdx} (listed : ra ∈ writtenRegs i) (v : Byte) (p : PcWord) :
      Writes s i { s.setReg ra v with pc := p }
  | output (ra : RegIdx) (p : PcWord) : Writes s (.prn (regByte ra)) { s.output (s.reg ra) with pc := p }
  | flags (a b u v : Byte) (p : PcWord) : Writes s (.cmp a b) { s.compare u v with pc := p }
  | push (ra : RegIdx) (p : PcWord) : Writes s (.push (regByte ra)) { s.decSp.storeTop ra with pc := p }
  | pop (ra : RegIdx) (p : PcWord) : Writes s (.pop (regByte ra)) { (s.loadTop ra).incSp with pc := p }

theorem Effect.writes (e : Effect s i t) : Writes s i t := by
  cases i with
  | hlt => obtain rfl := e; exact .run _
  | ldi => obtain ⟨ra, rfl, rfl⟩ := e; exact .register (by simp [writtenRegs, regByte_toNat]) _ _
  | prn => obtain ⟨ra, rfl, rfl⟩ := e; exact .output ra _
  | mul | add => obtain ⟨ra, rb, rfl, rfl, rfl⟩ := e; exact .register (by simp [writtenRegs, regByte_toNat]) _ _
  | cmp => obtain ⟨ra, rb, -, -, rfl⟩ := e; exact .flags _ _ _ _ _
  | jmp => obtain ⟨ra, -, rfl⟩ := e; exact .pcOnly _ _
  | jeq | jne =>
    obtain ⟨ra, -, rfl⟩ := e
    split
    · exact .pcOnly _ _
    · exact .pcOnly _ _
  | push => obtain ⟨ra, rfl, rfl⟩ := e; exact .push ra _
  | pop => obtain ⟨ra, rfl, rfl⟩ := e; exact .pop ra _

theorem Effect.flagsKept (e : Effect s i t) (other : i.opcode ≠ .cmp) : FlagsKept s t := by
  cases e.writes with
  | flags => exact absurd rfl other
  | pcOnly | run | register | output | push | pop => exact ⟨rfl, rfl, rfl⟩

/-- Memory is as before, or PUSH has stored one byte at the decremented SP. -/
theorem Effect.memory_cases (e : Effect s i t) :
    t.M = s.M ∨ i.opcode = .push ∧ ∃ v, t.M = s.M.write s.decSp.sp v := by
  cases e.writes with
  | push ra => exact .inr ⟨rfl, _, rfl⟩
  | pcOnly | run | register | output | flags | pop => exact .inl rfl

theorem Effect.regsKept (e : Effect s i t) : RegsKeptBut s t (writtenRegs i) := by
  cases e.writes with
  | register listed v => exact fun q outside => s.setReg_reg_ne v fun same => outside (same ▸ listed)
  | push ra => exact (s.push_frame ra 0).1
  | pop ra => rw [writtenRegs_pop]; exact (s.pop_frame ra 0).1
  | pcOnly | run | output | flags => exact fun _ _ => rfl

/-- The output stream is as before, or PRN has appended its register's byte. -/
theorem Effect.out_cases (e : Effect s i t) :
    t.out = s.out ∨ ∃ ra, i = .prn (regByte ra) ∧ t.out = s.out ++ [s.reg ra] := by
  cases e.writes with
  | output ra => exact .inr ⟨ra, rfl, rfl⟩
  | pcOnly | run | register | flags | push | pop => exact .inl rfl

/-! ### Every step answers a next state -/

theorem withReg_answers_next (s : State) (a : Byte) (k : RegIdx → State) : ∃ t, withReg s a k = .next t := by
  rcases withReg_cases s a k with ⟨ra, -, h⟩ | ⟨-, h⟩
  · exact ⟨_, h⟩
  · exact ⟨_, h⟩

theorem withRegs_answers_next (s : State) (a b : Byte) (k : RegIdx → RegIdx → State) :
    ∃ t, withRegs s a b k = .next t := by
  rcases withRegs_cases s a b k with ⟨ra, rb, -, -, h⟩ | ⟨v, -, -, h⟩
  · exact ⟨_, h⟩
  · exact ⟨_, h⟩

theorem exec_answers_next (i : Instr) (s : State) : ∃ t, exec i s = .next t := by
  cases i with
  | hlt => exact ⟨_, exec_hlt s⟩
  | ldi | prn | jmp | jeq | jne | push | pop => exact withReg_answers_next _ _ _
  | mul | add | cmp => exact withRegs_answers_next _ _ _ _

theorem step_answers_next (s : State) : ∃ t, step s = .next t := by
  by_cases hrun : s.run = .running
  · rw [step_running hrun]
    cases s.fetch with
    | instr i => exact exec_answers_next i s
    | unknown => exact ⟨_, rfl⟩
    | overrun => exact ⟨_, rfl⟩
  · exact ⟨s, step_of_stopped hrun⟩

/-! ### What was fetched, and what it did -/

/-- The instruction fetched is the one whose bytes stand at `pc` (40_execution_cycle.md R61). -/
theorem State.fetch_eq_instr_iff : s.fetch = .instr i ↔ s.AtPc (encode i) := by
  refine ⟨fun fetched => ?_, State.AtPc.fetch_eq⟩
  rcases Nat.lt_or_ge 255 s.pc.toNat with past | hpc
  · cases fetched.symm.trans (State.fetch_of_pc_past past)
  cases hop : opcodeOf s.opcodeByte with
  | none => cases fetched.symm.trans (State.fetch_of_opcode_unknown hpc hop)
  | some o =>
    have known : s.opcodeByte = o.byte := opcodeOf_eq_some.mp hop
    rcases Nat.lt_or_ge 256 (s.pc.toNat + o.length) with long | fits
    · cases fetched.symm.trans (State.fetch_of_opcode_long hpc known long)
    · have atPc := State.atPc_toInstr known fits
      cases fetched.symm.trans atPc.fetch_eq
      exact atPc

theorem Instr.ne_hlt_of_operand {v : Byte} (mem : v ∈ i.regOperands) : i ≠ .hlt := by
  rintro rfl
  cases mem

theorem step_halted_iff (hrun : s.run = .running) (h : step s = .next t) :
    t.run = .halted ↔ s.fetch = .instr .hlt := by
  rcases step_next_cases hrun h with ⟨⟨op, hf⟩, rfl⟩ | ⟨i, hf, effect⟩ | ⟨hf, rfl⟩ | ⟨i, hf, v, mem, -, rfl⟩
  · simp [hrun, hf]
  · simp [effect.run_eq, hrun, hf]
  · simp [hf]
  · simp [hf, Instr.ne_hlt_of_operand mem]

end Sys2Proof.Machine

open Sys2Proof Sys2Proof.Machine

/-- Settles O5: the instruction at `pc` is the one fetched. -/
theorem stepRunsDecodedInstruction : Obligations.StepRunsDecodedInstruction := fun _ _ hrun hat =>
  step_of_atPc hrun hat

/-- Settles O6, check by check: `pc`, the opcode, the instruction's last byte. -/
theorem stepFollowsTheCheckOrder : Obligations.StepFollowsTheCheckOrder := by
  intro s hrun
  refine ⟨step_of_pc_past hrun, fun hpc => ⟨step_of_opcode_unknown hrun hpc, fun o hop => ⟨fun long => ?overrun,
    fun fits => ?executed⟩⟩⟩
  case overrun => exact step_of_opcode_long hrun hpc (opcodeOf_eq_some.mp hop) (by omega)
  case executed =>
    have positive := o.length_bounds.1
    exact step_of_atPc hrun (State.atPc_toInstr (opcodeOf_eq_some.mp hop) (by omega))

/-- Settles O9: a self-loop is one for ever. -/
theorem stoppedCoreStaysAsItIs : Obligations.StoppedCoreStaysAsItIs := fun _ k stopped =>
  run_of_step_self (M := core) (step_of_stopped stopped) k

/-- Settles O10. -/
theorem stepAlwaysAnswersNext : Obligations.StepAlwaysAnswersNext := step_answers_next

/-- Settles O16: of all that a step can do, only the two raises record a fault. -/
theorem faultsArePrecise : Obligations.FaultsArePrecise := by
  intro s t c hrun hstep hfault
  rcases step_next_cases hrun hstep with ⟨-, rfl⟩ | ⟨i, -, effect⟩ | ⟨-, rfl⟩ | ⟨i, -, v, -, -, rfl⟩
  · cases hrun.symm.trans hfault
  · exact absurd hfault (effect.not_faulted hrun c)
  · cases hfault; rfl
  · cases hfault; rfl

/-- Settles O18: the fetched instruction is HLT, and what is fetched stands at `pc`. -/
theorem haltedOnlyByHlt : Obligations.HaltedOnlyByHlt := fun _ _ hrun hstep =>
  (step_halted_iff hrun hstep).trans State.fetch_eq_instr_iff

/-- Settles O19, for the effect and for the raise. -/
theorem onlyCmpWritesFlags : Obligations.OnlyCmpWritesFlags := by
  intro i s t hexec other
  rcases exec_next_cases hexec with effect | ⟨v, -, -, rfl⟩
  · exact effect.flagsKept other
  · exact ⟨rfl, rfl, rfl⟩

/-- Settles O20: the one store is PUSH's. -/
theorem onlyPushWritesMemory : Obligations.OnlyPushWritesMemory := by
  intro i s t hexec
  have memory : t.M = s.M ∨ i.opcode = .push ∧ ∃ v, t.M = s.M.write s.decSp.sp v := by
    rcases exec_next_cases hexec with effect | ⟨v, -, -, rfl⟩
    · exact effect.memory_cases
    · exact .inl rfl
  rcases memory with same | ⟨isPush, v, stored⟩
  · have kept : ∀ a, t.memRead a = s.memRead a := fun a => congrArg (Memory.read · a) same
    exact ⟨fun _ => kept, fun a _ => kept a⟩
  · refine ⟨fun other => absurd isPush other, fun a ne => ?_⟩
    rw [State.memRead, stored, Memory.read_write_ne s.M v ne, State.memRead]

/-- Settles O21, for the effect and for the raise. -/
theorem onlyTabledRegistersAreWritten : Obligations.OnlyTabledRegistersAreWritten := by
  intro i s t hexec
  rcases exec_next_cases hexec with effect | ⟨v, -, -, rfl⟩
  · exact effect.regsKept
  · exact fun _ _ => rfl

/-- Settles O22: of all that a step can do, only the effect of a fetched PRN appends. -/
theorem onlyPrnAppendsToOutput : Obligations.OnlyPrnAppendsToOutput := by
  intro s t hstep
  by_cases hrun : s.run = .running
  · rcases step_next_cases hrun hstep with ⟨-, rfl⟩ | ⟨i, fetched, effect⟩ | ⟨-, rfl⟩ | ⟨i, -, v, -, -, rfl⟩
    · exact .inl rfl
    · rcases effect.out_cases with same | ⟨ra, rfl, appended⟩
      · exact .inl same
      · exact .inr ⟨ra, State.fetch_eq_instr_iff.mp fetched, appended⟩
    · exact .inl rfl
    · exact .inl rfl
  · cases (step_of_stopped hrun).symm.trans hstep
    exact .inl rfl

end

section
/-! The machine's invariant (10_state.md R14, R19, R23, R26): every effect keeps it, and so does every raise whose record
the fetch justifies. -/

namespace Sys2Proof.Machine

variable {s t : State} {i : Instr}

theorem State.compare_flagsExclusive (s : State) (u v : Byte) : (s.compare u v).FlagsExclusive := by
  simp only [State.FlagsExclusive, State.compare_E, State.compare_L, State.compare_G, decide_eq_true_eq]
  omega

theorem Effect.flagsExclusive (e : Effect s i t) (h : s.FlagsExclusive) : t.FlagsExclusive := by
  cases e.writes with
  | flags a b u v => exact s.compare_flagsExclusive u v
  | pcOnly | run | register | output | push | pop => exact h

theorem Effect.memory_wf (e : Effect s i t) (h : s.M.wf) : t.M.wf := by
  rcases e.memory_cases with same | ⟨-, v, stored⟩
  · rwa [same]
  · rw [stored]
    exact Memory.write_wf h _ v

/-- An effect records no fault, and HLT has advanced `pc` when it halts (43_control.md R77). -/
theorem Effect.runRecordOk (hrun : s.run = .running) (fits : s.pc.toNat + i.length ≤ 256) (e : Effect s i t) :
    t.RunRecordOk := by
  rcases eq_or_ne i .hlt with rfl | other
  · obtain ⟨-, advanced, halted⟩ := e.pcTable fits
    simp [State.RunRecordOk, halted, advanced]
  · simp [State.RunRecordOk, e.run_eq, other, hrun]

theorem Effect.inv (inv : s.Inv) (hrun : s.run = .running) (fits : s.pc.toNat + i.length ≤ 256)
    (e : Effect s i t) : t.Inv where
  memory := e.memory_wf inv.memory
  pcRange := (e.pcTable fits).1
  flags := e.flagsExclusive inv.flags
  record := e.runRecordOk hrun fits

theorem State.Inv.raise (inv : s.Inv) {c : Cause} (record : (s.raise c).RunRecordOk) : (s.raise c).Inv :=
  ⟨inv.memory, inv.pcRange, inv.flags, record⟩

/-- A fetch overruns at the last two addresses or past them (60_exceptions.md R86). -/
theorem State.pc_ge_of_fetch_overrun (h : s.fetch = .overrun) : 254 ≤ s.pc.toNat := by
  rcases State.fetch_eq_overrun_iff.mp h with past | ⟨o, -, long⟩
  · omega
  · have longest : o.length ≤ 3 := o.length_bounds.2
    omega

theorem Instr.two_le_length_of_operand {v : Byte} (mem : v ∈ i.regOperands) : 2 ≤ i.length := by
  cases i with
  | hlt => cases mem
  | prn | jmp | jeq | jne | push | pop => exact Nat.le_refl 2
  | ldi | mul | add | cmp => exact Nat.le_succ 2

theorem State.AtPc.fits (h : s.AtPc (encode i)) : s.pc.toNat + i.length ≤ 256 := by
  simpa [encode_length] using h.1

end Sys2Proof.Machine

open Sys2Proof Sys2Proof.Machine

/-- Settles O12, over all that a step can do. -/
theorem stepKeepsInvariant : Obligations.StepKeepsInvariant := by
  intro s t inv hstep
  by_cases hrun : s.run = .running
  · rcases step_next_cases hrun hstep with ⟨-, rfl⟩ | ⟨i, hf, effect⟩ | ⟨hf, rfl⟩ | ⟨i, hf, v, mem, bad, rfl⟩
    · exact inv
    · exact effect.inv inv hrun (State.fetch_eq_instr_iff.mp hf).fits
    · exact inv.raise ⟨rfl, State.pc_ge_of_fetch_overrun hf⟩
    · have fits := (State.fetch_eq_instr_iff.mp hf).fits
      have two := Instr.two_le_length_of_operand mem
      exact inv.raise ⟨bad, show s.pc.toNat ≤ 254 by omega⟩
  · cases (step_of_stopped hrun).symm.trans hstep
    exact inv

/-- Settles O13: the reset memory lists no cell, `pc` is 0, no flag is set and the core runs. -/
theorem resetMeetsInvariant : Obligations.ResetMeetsInvariant where
  memory := Memory.wf_nil
  pcRange := Nat.zero_le _
  flags := by decide
  record := trivial

end

section
/-! What no instruction reads (10_state.md R22, R27): states that differ in L, G and the output stream alone step alike and
emit alike. -/

namespace Sys2Proof.Machine

open Sys2Proof.Claims

variable {s t s' t' s'' t'' : State}

/-- The same state, with other values where nothing is read. -/
def State.withUnread (s : State) (l g : Bool) (o : List Byte) : State := { s with L := l, G := g, out := o }

theorem exists_withUnread_of_agree (h : AgreeOnWhatIsRead s t) : ∃ l g o, t = s.withUnread l g o := by
  obtain ⟨hM, hx, hpc, hE, hrun⟩ := h
  exact ⟨t.L, t.G, t.out, by rw [State.withUnread, hM, hx, hpc, hE, hrun]⟩

/-- From `s` and `t` on, `s'` and `t'` have emitted the same bytes, and they agree on what is read. -/
def AgreeEmitting (s t s' t' : State) : Prop :=
  AgreeOnWhatIsRead s' t' ∧ ∃ emitted, s'.out = s.out ++ emitted ∧ t'.out = t.out ++ emitted

theorem AgreeEmitting.of_silent (agree : AgreeOnWhatIsRead s' t') (hs : s'.out = s.out) (ht : t'.out = t.out) :
    AgreeEmitting s t s' t' :=
  ⟨agree, [], by simp [hs], by simp [ht]⟩

theorem AgreeEmitting.trans (first : AgreeEmitting s t s' t') (second : AgreeEmitting s' t' s'' t'') :
    AgreeEmitting s t s'' t'' := by
  obtain ⟨-, e, hs, ht⟩ := first
  obtain ⟨agree, e', hs', ht'⟩ := second
  exact ⟨agree, e ++ e', by rw [hs', hs, List.append_assoc], by rw [ht', ht, List.append_assoc]⟩

/-- The operand check reads the operand byte alone: two states have the effect on the same register, or the same raise. -/
theorem withReg_next_related {R : State → State → Prop} {a : Byte} {k k' : RegIdx → State}
    (h : withReg s a k = .next s') (h' : withReg t a k' = .next t')
    (effects : ∀ ra, R (k ra) (k' ra)) (raises : ∀ c, R (s.raise c) (t.raise c)) : R s' t' := by
  rcases Nat.lt_or_ge a.toNat 8 with ok | bad
  · obtain ⟨ra, rfl⟩ := eq_regByte ok
    cases (withReg_regByte s ra k).symm.trans h
    cases (withReg_regByte t ra k').symm.trans h'
    exact effects ra
  · cases (withReg_bad s bad k).symm.trans h
    cases (withReg_bad t bad k').symm.trans h'
    exact raises _

theorem withRegs_next_related {R : State → State → Prop} {a b : Byte} {k k' : RegIdx → RegIdx → State}
    (h : withRegs s a b k = .next s') (h' : withRegs t a b k' = .next t')
    (effects : ∀ ra rb, R (k ra rb) (k' ra rb)) (raises : ∀ c, R (s.raise c) (t.raise c)) : R s' t' := by
  rcases Nat.lt_or_ge a.toNat 8 with ok | bad
  · obtain ⟨ra, rfl⟩ := eq_regByte ok
    rw [withRegs, regIdx_regByte] at h h'
    exact withReg_next_related h h' (effects ra) raises
  · cases (withRegs_bad_left s b bad k).symm.trans h
    cases (withRegs_bad_left t b bad k').symm.trans h'
    exact raises _

/-- No instruction reads L, G or the output stream, and what one emits is a register's value. -/
theorem exec_withUnread {i : Instr} {l g : Bool} {o : List Byte} (h : exec i s = .next s')
    (h' : exec i (s.withUnread l g o) = .next t') : AgreeEmitting s (s.withUnread l g o) s' t' := by
  have raises c : AgreeEmitting s (s.withUnread l g o) (s.raise c) ((s.withUnread l g o).raise c) :=
    .of_silent ⟨rfl, rfl, rfl, rfl, rfl⟩ rfl rfl
  have jumps taken target : AgreeEmitting s (s.withUnread l g o) (s.jumpIf taken target)
      ((s.withUnread l g o).jumpIf taken target) := by
    cases taken with
    | true => exact .of_silent ⟨rfl, rfl, rfl, rfl, rfl⟩ rfl rfl
    | false => exact .of_silent ⟨rfl, rfl, rfl, rfl, rfl⟩ rfl rfl
  cases i with
  | hlt =>
    cases h
    cases h'
    exact .of_silent ⟨rfl, rfl, rfl, rfl, rfl⟩ rfl rfl
  | prn => exact withReg_next_related h h' (fun ra => ⟨⟨rfl, rfl, rfl, rfl, rfl⟩, [s.reg ra], rfl, rfl⟩) raises
  | jeq =>
    rw [exec_jeq] at h h'
    exact withReg_next_related h h' (fun _ => jumps _ _) raises
  | jne =>
    rw [exec_jne] at h h'
    exact withReg_next_related h h' (fun _ => jumps _ _) raises
  | ldi | jmp | push | pop =>
    exact withReg_next_related h h' (fun _ => .of_silent ⟨rfl, rfl, rfl, rfl, rfl⟩ rfl rfl) raises
  | mul | add | cmp =>
    exact withRegs_next_related h h' (fun _ _ => .of_silent ⟨rfl, rfl, rfl, rfl, rfl⟩ rfl rfl) raises

theorem step_agreeEmitting (agree : AgreeOnWhatIsRead s t) (h : step s = .next s') (h' : step t = .next t') :
    AgreeEmitting s t s' t' := by
  obtain ⟨l, g, o, rfl⟩ := exists_withUnread_of_agree agree
  by_cases hrun : s.run = .running
  · have hrun' : (s.withUnread l g o).run = .running := hrun
    have sameFetch : (s.withUnread l g o).fetch = s.fetch := rfl
    rw [step_running hrun] at h
    rw [step_running hrun', sameFetch] at h'
    generalize s.fetch = fetched at h h'
    cases fetched with
    | instr i => exact exec_withUnread h h'
    | unknown =>
      cases h
      cases h'
      exact .of_silent agree rfl rfl
    | overrun =>
      cases h
      cases h'
      exact .of_silent ⟨rfl, rfl, rfl, rfl, rfl⟩ rfl rfl
  · have hrun' : (s.withUnread l g o).Stopped := hrun
    cases (step_of_stopped hrun).symm.trans h
    cases (step_of_stopped hrun').symm.trans h'
    exact .of_silent agree rfl rfl

theorem run_succ_eq_next {M : Host.Core} {k : Nat} {u v : M.State} (h : M.run (k + 1) u = .next v) :
    ∃ w, M.step u = .next w ∧ M.run k w = .next v := by
  rw [Host.Core.run] at h
  cases hw : M.step u with
  | next w =>
    rw [hw] at h
    exact ⟨w, rfl, h⟩
  | fault r => simp [hw] at h
  | refused r => simp [hw] at h

end Sys2Proof.Machine

open Sys2Proof Sys2Proof.Machine

/-- Settles O23, by induction on the number of steps; the bytes of the first step come before those of the rest. -/
theorem lessGreaterAndOutputAreNeverRead : Obligations.LessGreaterAndOutputAreNeverRead := by
  intro k
  induction k with
  | zero =>
    intro s t s' t' agree h h'
    cases h
    cases h'
    exact AgreeEmitting.of_silent agree rfl rfl
  | succ k ih =>
    intro s t s' t' agree h h'
    obtain ⟨u, step_s, rest_s⟩ := run_succ_eq_next h
    obtain ⟨v, step_t, rest_t⟩ := run_succ_eq_next h'
    have first : AgreeEmitting s t u v := step_agreeEmitting agree step_s step_t
    exact first.trans (ih u v s' t' first.1 rest_s rest_t)

end

section
/-! CMP (41_alu.md R73, 10_state.md R23), and ADD and MUL in the signed reading (41_alu.md R70). -/

namespace Sys2Proof.Machine

open Sys2Proof.Claims

theorem exec_cmp (s : State) (a b : Byte) :
    exec (.cmp a b) s = withRegs s a b fun ra rb => (s.compare (s.reg ra) (s.reg rb)).advance 3 := rfl

theorem exec_cmp_regByte (s : State) (ra rb : RegIdx) :
    exec (.cmp (regByte ra) (regByte rb)) s = .next ((s.compare (s.reg ra) (s.reg rb)).advance 3) := by
  rw [exec_cmp, withRegs_regByte]

theorem exec_add_regByte (s : State) (ra rb : RegIdx) : exec (.add (regByte ra) (regByte rb)) s =
    .next ((s.setReg ra (aluAdd (s.reg ra) (s.reg rb))).advance 3) := by
  rw [exec_add, withRegs_regByte]

theorem exec_mul_regByte (s : State) (ra rb : RegIdx) : exec (.mul (regByte ra) (regByte rb)) s =
    .next ((s.setReg ra (aluMul (s.reg ra) (s.reg rb))).advance 3) := by
  rw [exec_mul, withRegs_regByte]

/-- The flags after a comparison, by the unsigned order (decision D19). -/
theorem State.compare_flags_iff (s : State) (u v : Byte) :
    ((s.compare u v).E = true ↔ u = v) ∧ ((s.compare u v).L = true ↔ u.toNat < v.toNat) ∧
      ((s.compare u v).G = true ↔ u.toNat > v.toNat) := by
  simp [BitVec.toNat_inj]

/-- The order is total, so one flag is set and no other. -/
theorem State.compare_flags_sum (s : State) (u v : Byte) :
    (s.compare u v).E.toNat + (s.compare u v).L.toNat + (s.compare u v).G.toNat = 1 := by
  rcases Nat.lt_trichotomy u.toNat v.toNat with less | equal | greater
  · simp [less, less.ne, less.le]
  · simp [equal]
  · simp [greater, greater.ne', greater.le]

/-- What a comparison followed by an advance keeps: all but the flags and `pc`. -/
theorem State.compare_advance_frame (s : State) (u v : Byte) (n : Nat) :
    RegsKeptBut s ((s.compare u v).advance n) [] ∧ MemoryKept s ((s.compare u v).advance n) ∧
      RunAndOutKept s ((s.compare u v).advance n) :=
  ⟨fun _ _ => rfl, fun _ => rfl, rfl, rfl⟩

theorem aluAdd_eq_add (u v : Byte) : aluAdd u v = u + v :=
  BitVec.eq_of_toNat_eq (by rw [aluAdd_toNat, BitVec.toNat_add])

theorem aluMul_eq_mul (u v : Byte) : aluMul u v = u * v :=
  BitVec.eq_of_toNat_eq (by rw [aluMul_toNat, BitVec.toNat_mul])

end Sys2Proof.Machine

open Sys2Proof Sys2Proof.Machine

/-- Settles O26, as O24: the flags are the comparison's, and the fetch is that of any opcode of length 3. -/
theorem cmpRule : Obligations.CmpRule := by
  refine ⟨fun _ _ => rfl, fun s ra rb => ?effect, checksRegisters_of_exec_eq exec_cmp, fetchedUpTo_toInstr .cmp⟩
  case effect =>
    obtain ⟨equal, less, greater⟩ := s.compare_flags_iff (s.reg ra) (s.reg rb)
    exact ⟨_, exec_cmp_regByte s ra rb, equal, less, greater, rfl, s.compare_advance_frame _ _ 3⟩

/-- Settles O27: the advance after the comparison keeps its flags. -/
theorem cmpLeavesExactlyOneFlag : Obligations.CmpLeavesExactlyOneFlag := fun s ra rb =>
  ⟨_, exec_cmp_regByte s ra rb, s.compare_flags_sum (s.reg ra) (s.reg rb)⟩

/-- Settles O39: the low byte of the unsigned result is that of the signed one. -/
theorem aluAgreesWithSignedReading : Obligations.AluAgreesWithSignedReading := by
  intro s t ra rb
  refine ⟨fun hexec => ?sum, fun hexec => ?product⟩
  case sum =>
    cases (exec_add_regByte s ra rb).symm.trans hexec
    rw [State.advance_reg, State.setReg_reg_same, aluAdd_eq_add, BitVec.toInt_add]
  case product =>
    cases (exec_mul_regByte s ra rb).symm.trans hexec
    rw [State.advance_reg, State.setReg_reg_same, aluMul_eq_mul, BitVec.toInt_mul]

end

section
/-! A program that PUSH writes over (20_memory.md R46, R47): the byte that a core fetches at SP after a PUSH, and a PUSH that
lands on its own operand byte. -/

namespace Sys2Proof.Machine

variable {s : State}

/-- A core that jumped to an address has the byte there as its next opcode byte. -/
theorem State.jump_opcodeByte (s : State) (a : Addr) : (s.jump a).opcodeByte = s.memRead a := by
  rw [State.opcodeByte, State.jump_memRead, (s.jump_pc_toNat a).2, BitVec.ofNat_toNat, BitVec.setWidth_eq]

theorem State.push_memRead_top (h : s.M.wf) (ra : RegIdx) :
    ((s.decSp.storeTop ra).advance 2).memRead s.decSp.sp = s.decSp.reg ra :=
  State.storeTop_memRead_top (s := s.decSp) h ra

theorem step_of_opcode_hlt (hrun : s.run = .running) (hpc : s.pc.toNat ≤ 255) (hop : s.opcodeByte = 0x01) :
    step s = .next (s.halt.advance 1) :=
  ((fetchedUpTo_toInstr .hlt s hrun hpc hop).1 hpc).trans (exec_hlt s)

end Sys2Proof.Machine

open Sys2Proof Sys2Proof.Machine

/-- Settles O37: PUSH leaves SP at the address it stored to, and the jump fetches there. -/
theorem fetchSeesThePushedByte : Obligations.FetchSeesThePushedByte := by
  intro s t ra h hexec
  cases (exec_push_regByte s ra).symm.trans hexec
  have fetched := (State.jump_opcodeByte ((s.decSp.storeTop ra).advance 2) s.decSp.sp).trans (State.push_memRead_top h ra)
  refine ⟨fetched, fun hrun isHlt => ⟨_, step_of_opcode_hlt hrun ?isAddress (fetched.trans isHlt), rfl⟩⟩
  case isAddress =>
    rw [(State.jump_pc_toNat _ _).2]
    exact Nat.le_of_lt_succ (BitVec.isLt _)

/-- Settles O38: the step is `exec` of the instruction as it stood in memory before the store. -/
theorem pushUsesTheFetchedOperand : Obligations.PushUsesTheFetchedOperand := by
  intro s ra hrun h hat lands
  have executed : step s = exec (.push (regByte ra)) s := step_of_atPc hrun hat
  have target : BitVec.ofNat 8 (s.pc.toNat + 1) = s.decSp.sp := by
    rw [← lands, BitVec.ofNat_toNat, BitVec.setWidth_eq]
  refine ⟨_, executed.trans (exec_push_regByte s ra), ?stored, (State.advance_pc_of_fits hat.1).2⟩
  case stored => rw [target, State.push_memRead_top h]

end

section
/-! The host's interface (10_state.md R30, R31, R35): what a loaded image reads as, when a session moves by itself, the cells
of the trace record; and the reset values that the spec decides. -/

namespace Sys2Proof.Machine

/-- After a load an address reads as its byte of the image, or as before where the image has none (R30). -/
theorem State.load_memRead {s : State} (h : s.M.wf) (image : List Byte) (a : Addr) :
    (s.load image).memRead a = (image[a.toNat]?).getD (s.memRead a) := by
  simp [State.memRead, Memory.read_writeBytes h]

theorem Session.tick_of_not_launched {h : Session} (hp : h.phase ≠ .launched) : h.tick = some h := by
  rw [Session.tick]
  cases phase : h.phase with
  | launched => exact absurd phase hp
  | ready => rfl
  | loaded => rfl

theorem Session.tick_of_launched {h : Session} (hp : h.phase = .launched) {t : State} (next : step h.core = .next t) :
    h.tick = some ⟨.launched, t⟩ := by
  simp [Session.tick, hp, next]

theorem State.byteAt?_of_lt (s : State) {a : Nat} (h : a < 256) : s.byteAt? a = some (s.memRead (BitVec.ofNat 8 a)) :=
  if_pos h

theorem State.byteAt?_of_ge (s : State) {a : Nat} (h : 256 ≤ a) : s.byteAt? a = none :=
  if_neg (Nat.not_lt.mpr h)

/-- The cells of the trace record are those from `pc` up (R35). -/
theorem State.trace_cells_getElem (s : State) {k : Nat} (hk : k < s.trace.cells.length) :
    s.trace.cells[k] = s.byteAt? (s.pc.toNat + k) := by
  have three : k < 3 := hk
  match k, three with
  | 0, _ | 1, _ | 2, _ => rfl

/-- r0 to r6 are zero after reset (10_state.md R18, decision D5). -/
theorem State.reset_reg_of_ne {r : RegIdx} (h : r ≠ Config.spIndex) : State.reset.reg r = Config.regReset := by
  have other : (7 : Nat) ≠ r := fun same => h (Fin.ext same.symm)
  simp [State.reset, State.reg, Vector.getElem_set_ne _ _ other]

end Sys2Proof.Machine

open Sys2Proof Sys2Proof.Machine

/-- Settles O15: SP is the one register that reset does not clear. -/
theorem resetLeavesTheDecidedZeros : Obligations.ResetLeavesTheDecidedZeros :=
  ⟨fun _ other => State.reset_reg_of_ne other, rfl, rfl, rfl⟩

/-- Settles O40: an address below the image's length has a byte of it, and one from there up has none. -/
theorem loadPlacesTheImage : Obligations.LoadPlacesTheImage := by
  intro s image h hlen
  refine ⟨fun k hk => ?image, fun a above => ?above, Memory.writeBytes_wf h _ image, rfl⟩
  case image =>
    have address : (BitVec.ofNat 8 k).toNat = k := by
      rw [BitVec.toNat_ofNat]
      omega
    rw [State.load_memRead h, address, List.getElem?_eq_getElem hk, Option.getD_some]
  case above => rw [State.load_memRead h, List.getElem?_eq_none above, Option.getD_none]

/-- Settles O42: a launched core's step answers a next state, and the tick takes it. -/
theorem sessionStepsOnlyAfterRun : Obligations.SessionStepsOnlyAfterRun := by
  intro h
  refine ⟨Session.tick_of_not_launched, fun hp => ?_⟩
  obtain ⟨t, next⟩ := step_answers_next h.core
  exact ⟨t, next, Session.tick_of_launched hp next⟩

/-- Settles O46: a cell is the byte at its address, where there is such an address. -/
theorem traceShowsTheRecord : Obligations.TraceShowsTheRecord := by
  intro s
  refine ⟨rfl, fun _ => rfl, rfl, fun k hk => ?_⟩
  rw [s.trace_cells_getElem hk]
  exact ⟨fun present => s.byteAt?_of_lt (Nat.lt_succ_of_le present), fun absent => s.byteAt?_of_ge absent⟩

end
